-- ==== Sys2Proof/Word.lean ====
section
/-! DEFINITION. The words and bytes of the block (spec/00_scope.md R6, R8). -/

namespace Sys2Proof

/-- WORD_WIDTH = 32: coefficients, keys, accumulator, result, packet words (R6). -/
abbrev Word := BitVec 32

/-- One byte of the data memory (R29). -/
abbrev Byte := BitVec 8

end Sys2Proof
end

