-- ==== Sys2Proof/Config.lean ====
section
/-! DEFINITION. The parameters of spec/00_scope.md R6: fixed ones as numbers, OPEN ones as constants
with no body, and the free values. -/

namespace Sys2Proof.Config

/-- DIGEST_BYTES (R6): the length of every digest. -/
def digestBytes : Nat := 4

/-- CHUNK_BYTES (R6): the folding chunk size. -/
def chunkBytes : Nat := 4

/-- The number of bytes of the data memory, ADDR_WIDTH = 32 (R6, R29). -/
def memorySize : Nat := 2 ^ 32

/-- The one open number behind MODULUS: how far M lies above the least value R7 allows. There are
2^32 - 2^30 - 1 allowed values, one for each element of this type. OPEN (D3); log entry 3. -/
opaque modulusOffset : Fin 3221225471

/-- MODULUS, written M (R7): an open constant of the family with 2^30 < M < 2^32, and nothing else
said of it; in particular M = 2^31 - 1 is not excluded (U17). -/
def modulus : Nat := 2 ^ 30 + 1 + modulusOffset.val

/-- What the file collaborator does with a trailing partial record (D19). -/
inductive TailPolicy where
  /-- an extra, zero-padded Word -/
  | pad
  /-- the partial record is dropped: End -/
  | drop
  /-- the file is refused: Error -/
  | fail
deriving DecidableEq, Repr, Inhabited

/-- FILE_TAIL_POLICY (R6, R43): OPEN; log entry 10. -/
opaque fileTailPolicy : TailPolicy

/-- FREE VALUE: the byte the n-th read that races with a host write returns: any byte, independently for
each read (R41, U6); log entry 5. -/
opaque racedByte : Nat → Byte

end Sys2Proof.Config
end

