-- ==== Sys2Proof/Machine/State.lean ====
section
/-! DEFINITION. The state of the block (spec/10_state.md R27), the external agents' state it meets, the
reasons a step can stop, and reset. -/

namespace Sys2Proof.Machine

/-- The STATUS of a response (spec/60_exceptions.md R78). The reserved codes 0x7 to 0xF are never
produced, so they have no constructor (U10). -/
inductive Status where
  | ok
  | ioError
  | illegalCommand
  | notConfigured
  | alreadyConfigured
  | rangeError
  | busError
deriving DecidableEq, Repr

/-- One response and the host it is delivered to (R23, R54, R91). -/
structure Response where
  host   : Nat
  status : Status
  value  : Word
deriving DecidableEq, Repr

/-- What the collaborator answers to one StreamNext() (R42). -/
inductive StreamAnswer where
  /-- Word(w): the next integer of the sequence -/
  | word (w : Word)
  /-- End: the end of the sequence -/
  | endOfStream
  /-- Error: a failure to open or read -/
  | error
deriving DecidableEq, Repr

/-- A HASH_FILE in progress: its handle, whose stream is open, the accumulator ACC (R20), and how many
words it has taken (R24). The engine has one StreamNext() outstanding. -/
structure FileRun where
  handle : Word
  acc    : Word
  taken  : Nat
deriving DecidableEq, Repr

/-- The engine phase (R21). A command other than HASH_FILE is one indivisible step (R5), so between
steps BUSY(c) holds only a HASH_FILE (log entry 2). -/
inductive Phase where
  | idle
  | busy (c : FileRun)
deriving DecidableEq, Repr

/-- A whole packet in the command queue (R22), the host that sent it, and the addresses that hosts have
written since its first word was sent (R41; log entry 5). -/
structure Queued where
  host  : Nat
  words : List Word
  raced : List Nat
deriving DecidableEq, Repr

/-- What the engine keeps of the packet whose command it runs: the host to answer (R23) and the addresses
written since it was sent (R41). -/
structure Ticket where
  host  : Nat
  raced : List Nat
deriving DecidableEq, Repr

/-- The packet whose words are arriving on the command port, not yet whole; no words: none (R99). With it
the addresses that hosts have written since its first word (R41; log entry 5). -/
structure Arriving where
  host  : Nat
  words : List Word
  raced : List Nat
deriving DecidableEq, Repr

/-- What the block's ports carry (R28): memory reads and stream requests issued by the engine, responses
appended to the response queue, and responses delivered to their host. -/
inductive PortEvent where
  | memRead (addr : Nat)
  | streamOpen (h : Word)
  | streamNext
  | response (r : Response)
  | delivered (r : Response)
deriving DecidableEq, Repr

/-- One action of the outside, or one turn of the engine (log entry 8). -/
inductive Input where
  /-- the engine takes this turn -/
  | engine
  /-- a host puts one packet word on the command port (R48) -/
  | word (host : Nat) (w : Word)
  /-- a host writes one byte of data memory (R29, R41) -/
  | write (addr : Word) (b : Byte)
  /-- a host takes its oldest response (R23) -/
  | take (host : Nat)
  /-- the file-stream collaborator answers the outstanding StreamNext() (R42) -/
  | answer (a : StreamAnswer)
  /-- the platform drives the reset input (R94) -/
  | reset
deriving DecidableEq, Repr

/-- Data memory (R29): the readable bytes, addresses strictly rising. An unlisted address has no readable
memory: its read is BusError (R31; log entry 4). -/
abbrev Memory := List Host.Cell

/-- The state: the table of R27, the external agents' state, and the model's own fields. -/
structure State where
  /-- PARAM_A (R15) -/
  paramA    : Word
  /-- PARAM_B (R16) -/
  paramB    : Word
  /-- CFG_VALID (R17) -/
  cfgValid  : Bool
  /-- engine phase, with ACC and the file-stream state (R20, R21, R24) -/
  phase     : Phase
  /-- command queue, oldest first (R22) -/
  queue     : List Queued
  /-- response queue, oldest first (R23) -/
  responses : List Response
  /-- the packet still arriving on the command port (R48, R99) -/
  arriving  : Arriving
  /-- the host's data memory (R29) -/
  memory    : Memory
  /-- model's own: whose command runs (log entry 7) -/
  current   : Ticket
  /-- model's own: how many free bytes have been drawn (log entry 5) -/
  freeIndex : Nat
  /-- model's own: what happens next, oldest first (log entry 8) -/
  inputs    : List Input
  /-- model's own: what the ports have carried, oldest first (log entry 9) -/
  trace     : List PortEvent
deriving DecidableEq, Repr

/-- Why a step stops the machine. No command of the spec stops it (R77). -/
inductive Fault where
  /-- Raised by the engine's turn where the head of the command queue is not one whole packet. The port
  lets only whole packets in (R53, R99), so no run from reset meets it (log entry 19). Safe: the model stops. -/
  | unframedPacket
deriving DecidableEq, Repr

/-- Why an instruction has no meaning. -/
inductive Refusal where
  /-- Raised by exec's arm of an instruction that has no meaning yet; no arm does. Safe: the model stops. -/
  | notModelled (mnemonic : String)
deriving DecidableEq, Repr

/-- The machine right after reset (R27, R94): CFG_VALID = 0, IDLE, queues empty, no stream open. A and B
"hold no value": the model gives them 0 (DESIGN CHOICE, log entry 1). Memory lists nothing (log entry 4). -/
def State.reset : State where
  paramA    := 0#32
  paramB    := 0#32
  cfgValid  := false
  phase     := .idle
  queue     := []
  responses := []
  arriving  := ⟨0, [], []⟩
  memory    := []
  current   := ⟨0, []⟩
  freeIndex := 0
  inputs    := []
  trace     := []

end Sys2Proof.Machine
end

