-- ==== Sys2Proof/Machine/Operands.lean ====
section
/-! DEFINITION. Operand forms and arithmetic: byte order (spec/20_memory.md R32, R33), the buffer operand
and its range (R36), zero-padded chunks (spec/41_fold_hash.md R63), and MAR (spec/40_word_hash.md R58). -/

namespace Sys2Proof.Machine

/-- LE32(b0, b1, b2, b3), the word with b3 in the most significant position (R32). -/
def le32 (b0 b1 b2 b3 : Byte) : Word := b3 ++ b2 ++ b1 ++ b0

/-- LEbytes(v), byte 0 first (R33). -/
def leBytes (v : Word) : List Byte :=
  [v.extractLsb' 0 8, v.extractLsb' 8 8, v.extractLsb' 16 8, v.extractLsb' 24 8]

/-- The digest bytes of a byte-form command's response (R55). -/
def digest (r : Response) : List Byte := leBytes r.value

/-- A buffer operand (addr, len) is in range when addr + len <= 2^32, without wrap-around (R36). -/
def inRange (addr len : Word) : Bool := addr.toNat + len.toNat ≤ Config.memorySize

/-- The words of a buffer's consecutive 4-byte chunks, a final partial chunk padded with zero bytes (R63). -/
def chunkWords : List Byte → List Word
  | [] => []
  | [b0] => [le32 b0 0 0 0]
  | [b0, b1] => [le32 b0 b1 0 0]
  | [b0, b1, b2] => [le32 b0 b1 b2 0]
  | b0 :: b1 :: b2 :: b3 :: rest => le32 b0 b1 b2 b3 :: chunkWords rest

/-- The sum of words modulo 2^32, from the left, starting at acc (R9, R65). -/
def sumWords (acc : Word) (ws : List Word) : Word := ws.foldl (· + ·) acc

/-- The accumulator of a byte buffer: ACC <- 0, then +32 of each chunk (R63). -/
def foldBytes (bs : List Byte) : Word := sumWords 0#32 (chunkWords bs)

/-- t = (a *32 x) +32 b: product and sum each wrap at 32 bits (R58; spec/90_conflicts.md C2). -/
def affine (a b x : Word) : Word := a * x + b

/-- MAR with the modulus as an argument: the exact remainder of t (R58). -/
def marBy (m : Nat) (a b x : Word) : Word := BitVec.ofNat 32 ((affine a b x).toNat % m)

/-- MAR(a, b, x) (R58), with the family's M. -/
def mar (a b x : Word) : Word := marBy Config.modulus a b x

end Sys2Proof.Machine
end

