-- ==== Sys2Proof/Machine/Ops.lean ====
section
/-! DEFINITION. The named operations over memory, registers and ports: reading the data memory
(spec/20_memory.md R31, R37, R41), folding a buffer (spec/41_fold_hash.md R63), answering a command and
raising an error (spec/30_encoding.md R54, spec/60_exceptions.md R80), the checks of R67 and R82, and the
file-stream requests (spec/20_memory.md R42). -/

namespace Sys2Proof.Machine

/-- Canonical form of the memory: addresses strictly rising, each below 2^32. No entry equals what an
unlisted address reads as, since that is BusError and no byte (log entry 4). -/
abbrev Memory.wf (m : Memory) : Prop :=
  m.Pairwise (fun c d => c.1 < d.1) ∧ ∀ c ∈ m, c.1 < Config.memorySize

/-- The byte at an address; none where the platform has no readable memory (R29, R31). -/
def Memory.read : Memory → Nat → Option Byte
  | [], _ => none
  | c :: m, a => if c.1 = a then some c.2 else Memory.read m a

/-- The memory after a host write of one byte (R29). -/
def Memory.write : Memory → Nat → Byte → Memory
  | [], a, b => [(a, b)]
  | c :: m, a, b =>
    if a < c.1 then (a, b) :: c :: m
    else if a = c.1 then (a, b) :: m
    else c :: Memory.write m a b

/-- What a read of the data memory gives: a value, or BusError (R31). -/
inductive ReadResult (α : Type) where
  | value (a : α)
  | busError
deriving DecidableEq, Repr

/-- The state after a port has carried one more event. -/
def logEvent (e : PortEvent) (s : State) : State := { s with trace := s.trace ++ [e] }

/-- MemRead(addr, 1) (R31): the byte at addr, or BusError. A byte that a host wrote since the command was
sent reads as a free byte, a new one for each read (R41, U6; log entry 5). -/
def memRead (addr : Nat) (s : State) : ReadResult Byte × State :=
  match Memory.read s.memory addr with
  | none => (.busError, logEvent (.memRead addr) s)
  | some b =>
    if addr ∈ s.current.raced then
      (.value (Config.racedByte s.freeIndex), logEvent (.memRead addr) { s with freeIndex := s.freeIndex + 1 })
    else (.value b, logEvent (.memRead addr) s)

/-- The len reads of a buffer, one byte each, in increasing address order, ending at the first BusError
(R37, R67). -/
def readBytes : Nat → Nat → State → ReadResult (List Byte) × State
  | 0, _, s => (.value [], s)
  | n + 1, addr, s =>
    match memRead addr s with
    | (.busError, s₁) => (.busError, s₁)
    | (.value b, s₁) =>
      match readBytes n (addr + 1) s₁ with
      | (.busError, s₂) => (.busError, s₂)
      | (.value bs, s₂) => (.value (b :: bs), s₂)

/-- Fold(addr, len) (R63): the accumulator of the buffer's bytes, or BusError. -/
def fold (addr len : Word) (s : State) : ReadResult Word × State :=
  match readBytes len.toNat addr.toNat s with
  | (.busError, s₁) => (.busError, s₁)
  | (.value bs, s₁) => (.value (foldBytes bs), s₁)

/-- respond(status, value) (R10, R54): one response to the host that sent the command; the engine is IDLE
again, and ACC and any open stream are gone (R20, R24). -/
def respond (status : Status) (value : Word) (s : State) : State :=
  let r : Response := ⟨s.current.host, status, value⟩
  { s with
    phase := .idle
    current := ⟨0, []⟩
    responses := s.responses ++ [r]
    trace := s.trace ++ [.response r] }

/-- raise <Status> (R80), the block's only exception entry: the command ends with respond(<Status>, 0) and
no register is written. There is no trap and no return (R86). -/
def raiseStatus (status : Status) (s : State) : State := respond status 0#32 s

/-- The check CFG_VALID = 1, else NOT_CONFIGURED (R67, R79). -/
def whenConfigured (k : State → State) (s : State) : State :=
  if s.cfgValid then k s else raiseStatus .notConfigured s

/-- The check that a buffer is in range, else RANGE_ERROR (R36, R67). -/
def whenInRange (addr len : Word) (k : State → State) (s : State) : State :=
  if inRange addr len then k s else raiseStatus .rangeError s

/-- Fold a buffer and go on with its accumulator; BUS_ERROR at the first failing read (R67). -/
def withFold (addr len : Word) (k : Word → State → State) (s : State) : State :=
  match fold addr len s with
  | (.busError, s₁) => raiseStatus .busError s₁
  | (.value acc, s₁) => k acc s₁

/-- respond(OK, MAR(A, B, x)), the end of every hash with the instance's coefficients. -/
def respondHash (x : Word) (s : State) : State := respond .ok (mar s.paramA s.paramB x) s

/-- StreamNext() (R42): ask the collaborator for the next answer, and wait. -/
def streamNext (s : State) : State := logEvent .streamNext s

/-- StreamOpen(h) and ACC <- 0 (R42, R69): the engine is BUSY with the file. -/
def streamOpen (h : Word) (s : State) : State :=
  logEvent (.streamOpen h) { s with phase := .busy ⟨h, 0#32, 0⟩ }

/-- Take one answer of the collaborator inside a HASH_FILE (R69): fold a word and ask again, end with the
hash, or end with IO_ERROR. -/
def takeAnswer (c : FileRun) (a : StreamAnswer) (s : State) : State :=
  match a with
  | .word w => streamNext { s with phase := .busy { c with acc := c.acc + w, taken := c.taken + 1 } }
  | .endOfStream => respondHash c.acc s
  | .error => raiseStatus .ioError s

end Sys2Proof.Machine
end

