-- ==== Sys2Proof/Machine/FoldHash.lean ====
section
/-! DEFINITION. The byte-form hashes: HASH_BUF, HASH_FILE, HASH_KEYED (spec/41_fold_hash.md). -/

namespace Sys2Proof.Machine

/-- HASH_BUF addr, len (R68). -/
def execHashBuf (addr len : Word) (s : State) : Host.Outcome State Fault Refusal :=
  .next (whenConfigured (whenInRange addr len (withFold addr len respondHash)) s)

/-- HASH_FILE h (R69): open the stream, ACC <- 0, the first StreamNext(), and wait BUSY; `takeAnswer` is the
body of the rule's loop, run as the collaborator answers. -/
def execHashFile (h : Word) (s : State) : Host.Outcome State Fault Refusal :=
  .next (whenConfigured (fun s => streamNext (streamOpen h s)) s)

/-- HASH_KEYED kaddr, klen, maddr, mlen (R70, R71): both range checks before any read, key first; fold the
key, then the message; add; one MAR. -/
def execHashKeyed (kaddr klen maddr mlen : Word) (s : State) : Host.Outcome State Fault Refusal :=
  .next
    (whenConfigured
      (whenInRange kaddr klen
        (whenInRange maddr mlen
          (withFold kaddr klen fun accKey =>
            withFold maddr mlen fun accMsg => respondHash (accKey + accMsg)))) s)

end Sys2Proof.Machine
end

