-- ==== Sys2Proof/Machine/Params.lean ====
section
/-! DEFINITION. Configuration and parameter access: CONFIG, GET_A, GET_B, GET_DLEN
(spec/42_parameter_access.md). -/

namespace Sys2Proof.Machine

/-- CONFIG a, b (R72): once per reset. -/
def execConfig (a b : Word) (s : State) : Host.Outcome State Fault Refusal :=
  .next
    (if s.cfgValid then raiseStatus .alreadyConfigured s
     else respond .ok 0#32 { s with paramA := a, paramB := b, cfgValid := true })

/-- GET_A (R73): A exactly as CONFIG stored it. -/
def execGetA (s : State) : Host.Outcome State Fault Refusal :=
  .next (whenConfigured (fun s => respond .ok s.paramA s) s)

/-- GET_B (R74): B exactly as CONFIG stored it. -/
def execGetB (s : State) : Host.Outcome State Fault Refusal :=
  .next (whenConfigured (fun s => respond .ok s.paramB s) s)

/-- GET_DLEN (R75): DIGEST_BYTES; CFG_VALID is not checked. -/
def execGetDlen (s : State) : Host.Outcome State Fault Refusal :=
  .next (respond .ok (BitVec.ofNat 32 Config.digestBytes) s)

end Sys2Proof.Machine
end

