-- ==== Sys2Proof/Machine/WordHash.lean ====
section
/-! DEFINITION. The word-form hashes: HASH_WORD, HASH_WORD_AB (spec/40_word_hash.md). -/

namespace Sys2Proof.Machine

/-- HASH_WORD key (R60). -/
def execHashWord (key : Word) (s : State) : Host.Outcome State Fault Refusal :=
  .next (whenConfigured (respondHash key) s)

/-- HASH_WORD_AB key, a, b (R61): A and B neither read nor written. -/
def execHashWordAb (key a b : Word) (s : State) : Host.Outcome State Fault Refusal :=
  .next (whenConfigured (respond .ok (mar a b key)) s)

end Sys2Proof.Machine
end

