-- ==== Sys2Proof/Syntax.lean ====
section
/-! DEFINITION. The nine commands of spec/30_encoding.md R51, one constructor per row of
spec/opcode_table.json. -/

namespace Sys2Proof

/-- A command with its operand words op[1], op[2], … in R51's order. Every operand is a whole 32-bit
word, used as an unsigned value exactly as sent (R50). -/
inductive Instr where
  /-- CONFIG: create the instance (R72). -/
  | config (a b : Word)
  /-- GET_A: read the multiplier coefficient (R73). -/
  | getA
  /-- GET_B: read the additive coefficient (R74). -/
  | getB
  /-- GET_DLEN: read the digest length (R75). -/
  | getDlen
  /-- HASH_WORD: hash one word with the instance's coefficients (R60). -/
  | hashWord (key : Word)
  /-- HASH_WORD_AB: hash one word with the command's own coefficients (R61). -/
  | hashWordAb (key a b : Word)
  /-- HASH_BUF: hash a byte buffer (R68). -/
  | hashBuf (addr len : Word)
  /-- HASH_FILE: hash the words of a file stream (R69). -/
  | hashFile (h : Word)
  /-- HASH_KEYED: keyed hash of a key buffer and a message buffer (R70). -/
  | hashKeyed (kaddr klen maddr mlen : Word)
deriving DecidableEq, Repr

end Sys2Proof
end

