-- ==== Sys2Proof/Machine/Dispatch.lean ====
section
/-! DEFINITION. One arm per command of spec/opcode_table.json. -/

namespace Sys2Proof.Machine

def exec (i : Instr) (s : State) : Host.Outcome State Fault Refusal :=
  match i with
  | .config a b => Sys2Proof.Machine.execConfig a b s
  | .getA => Sys2Proof.Machine.execGetA s
  | .getB => Sys2Proof.Machine.execGetB s
  | .getDlen => Sys2Proof.Machine.execGetDlen s
  | .hashWord key => Sys2Proof.Machine.execHashWord key s
  | .hashWordAb key a b => Sys2Proof.Machine.execHashWordAb key a b s
  | .hashBuf addr len => Sys2Proof.Machine.execHashBuf addr len s
  | .hashFile h => Sys2Proof.Machine.execHashFile h s
  | .hashKeyed kaddr klen maddr mlen => Sys2Proof.Machine.execHashKeyed kaddr klen maddr mlen s

end Sys2Proof.Machine
end

