-- ==== Sys2Proof/WellFormed.lean ====
section
/-! DEFINITION. Well-formed commands. -/

namespace Sys2Proof

/-- Every command is well formed whatever its operands: "No operand value makes a packet illegal:
operand words are never checked at decode" (spec/30_encoding.md R52), and each operand is any 32-bit
value by its type. The block's only form check is on packets (Decode.lean: `framed`, `legalHeader`). -/
def Instr.wf : Instr → Bool
  | .config _ _ => true
  | .getA => true
  | .getB => true
  | .getDlen => true
  | .hashWord _ => true
  | .hashWordAb _ _ _ => true
  | .hashBuf _ _ => true
  | .hashFile _ => true
  | .hashKeyed _ _ _ _ => true

end Sys2Proof
end

