-- ==== Sys2Proof/Decode.lean ====
section
/-! DEFINITION. Command packets: header fields, framing, the decoder and the encoder
(spec/30_encoding.md R48 to R53, R56). -/

namespace Sys2Proof

/-- OPC, header bits 7:0 (R49). -/
def headerOpc (h : Word) : BitVec 8 := h.extractLsb' 0 8

/-- NOPS, header bits 11:8 (R49). -/
def headerNops (h : Word) : BitVec 4 := h.extractLsb' 8 4

/-- RSVD, header bits 31:12 (R49). -/
def headerRsvd (h : Word) : BitVec 20 := h.extractLsb' 12 20

/-- The length of every packet, legal or not, is 1 + header[11:8] words (R53). -/
def packetLength (h : Word) : Nat := 1 + (headerNops h).toNat

/-- A list of words is one whole packet: a header and as many operand words as its NOPS says (R48). -/
def framed : List Word → Bool
  | [] => false
  | h :: ops => (h :: ops).length == packetLength h

/-- The NOPS of each assigned opcode (R51); none for an unassigned one (R56). -/
def assignedNops (opc : BitVec 8) : Option (BitVec 4) :=
  if opc = 0x01#8 then some 2#4
  else if opc = 0x02#8 then some 0#4
  else if opc = 0x03#8 then some 0#4
  else if opc = 0x04#8 then some 0#4
  else if opc = 0x10#8 then some 1#4
  else if opc = 0x11#8 then some 3#4
  else if opc = 0x20#8 then some 2#4
  else if opc = 0x21#8 then some 1#4
  else if opc = 0x22#8 then some 4#4
  else none

/-- R52: RSVD = 0, OPC is assigned, and NOPS is that opcode's NOPS. -/
def legalHeader (h : Word) : Bool :=
  headerRsvd h == 0#20 && assignedNops (headerOpc h) == some (headerNops h)

/-- Why the decoder gives no command. All but `truncated` answer ILLEGAL_COMMAND (R52); a packet cut short
never enters the queue (R99). -/
inductive Reject where
  /-- there are fewer words than the header asks for -/
  | truncated
  /-- a bit of RSVD is set -/
  | reservedBits
  /-- OPC is none of the nine values of R51 -/
  | unassignedOpcode
  /-- NOPS is not the opcode's NOPS of R51 -/
  | wrongOperandCount
deriving DecidableEq, Repr

/-- The operand words of an assigned opcode, in R51's order, and the words after them. -/
def decodeOperands (opc : BitVec 8) (ops : List Word) : Except Reject (Instr × List Word) :=
  if opc = 0x01#8 then
    match ops with
    | a :: b :: rest => .ok (.config a b, rest)
    | _ => .error .truncated
  else if opc = 0x02#8 then .ok (.getA, ops)
  else if opc = 0x03#8 then .ok (.getB, ops)
  else if opc = 0x04#8 then .ok (.getDlen, ops)
  else if opc = 0x10#8 then
    match ops with
    | key :: rest => .ok (.hashWord key, rest)
    | _ => .error .truncated
  else if opc = 0x11#8 then
    match ops with
    | key :: a :: b :: rest => .ok (.hashWordAb key a b, rest)
    | _ => .error .truncated
  else if opc = 0x20#8 then
    match ops with
    | addr :: len :: rest => .ok (.hashBuf addr len, rest)
    | _ => .error .truncated
  else if opc = 0x21#8 then
    match ops with
    | h :: rest => .ok (.hashFile h, rest)
    | _ => .error .truncated
  else if opc = 0x22#8 then
    match ops with
    | kaddr :: klen :: maddr :: mlen :: rest => .ok (.hashKeyed kaddr klen maddr mlen, rest)
    | _ => .error .truncated
  else .error .unassignedOpcode

/-- The command at the front of a list of words, and the words after its packet; or the reason why there
is none (R52). -/
def decode : List Word → Except Reject (Instr × List Word)
  | [] => .error .truncated
  | h :: ops =>
    if headerRsvd h ≠ 0#20 then .error .reservedBits
    else
      match assignedNops (headerOpc h) with
      | none => .error .unassignedOpcode
      | some n => if headerNops h ≠ n then .error .wrongOperandCount else decodeOperands (headerOpc h) ops

/-- A header word with RSVD = 0 (R49). -/
def headerWord (opc : BitVec 8) (nops : BitVec 4) : Word := 0#20 ++ nops ++ opc

/-- The packet of a command: R51's header word and the operand words in order. -/
def encode : Instr → List Word
  | .config a b => [headerWord 0x01#8 2#4, a, b]
  | .getA => [headerWord 0x02#8 0#4]
  | .getB => [headerWord 0x03#8 0#4]
  | .getDlen => [headerWord 0x04#8 0#4]
  | .hashWord key => [headerWord 0x10#8 1#4, key]
  | .hashWordAb key a b => [headerWord 0x11#8 3#4, key, a, b]
  | .hashBuf addr len => [headerWord 0x20#8 2#4, addr, len]
  | .hashFile h => [headerWord 0x21#8 1#4, h]
  | .hashKeyed kaddr klen maddr mlen => [headerWord 0x22#8 4#4, kaddr, klen, maddr, mlen]

/-- The packet whose bits are w, numbered as spec/opcode_table.json numbers them: the header is bits 31:0,
op[k] is bits 32k+31 : 32k, every bit at nbits or above is 0, and the header's NOPS says how many operand
words there are (R53). -/
def tablePacket (nbits w : Nat) : List Word :=
  let v := w % 2 ^ nbits
  let h : Word := BitVec.ofNat 32 v
  h :: (List.range (headerNops h).toNat).map fun k => BitVec.ofNat 32 (v >>> (32 * (k + 1)))

/-- The command the decoder reads from the packet of table word w; none where it refuses. -/
def decodeTableWord (nbits w : Nat) : Option Instr :=
  match decode (tablePacket nbits w) with
  | .ok (i, []) => some i
  | _ => none

end Sys2Proof
end

