-- ==== Sys2Proof/Machine/Ports.lean ====
section
/-! DEFINITION. What the outside does to the block: packet words (spec/30_encoding.md R48, R53), host
writes (spec/20_memory.md R41), taken responses (spec/10_state.md R23), stream answers
(spec/20_memory.md R42), and the reset input (spec/70_reset_and_hazards.md R94, R95). -/

namespace Sys2Proof.Machine

/-- A host puts one word on the command port. A packet enters the queue whole, and the words of two packets
never interleave (R48): while one host's packet is arriving, another host's word is not transferred
(log entry 6). -/
def acceptWord (host : Nat) (w : Word) (s : State) : State :=
  if s.arriving.words ≠ [] ∧ s.arriving.host ≠ host then s
  else if framed (s.arriving.words ++ [w]) then
    { s with
      arriving := ⟨0, [], []⟩
      queue := s.queue ++ [⟨host, s.arriving.words ++ [w], s.arriving.raced⟩] }
  else { s with arriving := ⟨host, s.arriving.words ++ [w], s.arriving.raced⟩ }

/-- The packet with one more address that a host wrote after it was sent (R41). -/
def Queued.race (addr : Nat) (q : Queued) : Queued := { q with raced := addr :: q.raced }

/-- The same of a packet that is still arriving; where none is, the write races with nothing. -/
def Arriving.race (addr : Nat) (p : Arriving) : Arriving :=
  if p.words = [] then p else { p with raced := addr :: p.raced }

/-- A host writes one byte of data memory. Every command already sent, or being sent, has now had this byte written before
its response (R41). -/
def hostWrite (addr : Word) (b : Byte) (s : State) : State :=
  { s with
    memory := Memory.write s.memory addr.toNat b
    queue := s.queue.map (Queued.race addr.toNat)
    arriving := s.arriving.race addr.toNat }

/-- A host takes its oldest response, if it has one (R23). DESIGN CHOICE: "in command order" is taken per
host, so a host may take its response before another host has taken an older one; unsafe only for a claim that
a host can always take its response at once (log entry 20). -/
def takeResponse (host : Nat) (s : State) : State :=
  match s.responses.find? (fun r => r.host == host) with
  | none => s
  | some r =>
    { s with
      responses := s.responses.eraseP (fun r => r.host == host)
      trace := s.trace ++ [.delivered r] }

/-- The collaborator answers the outstanding StreamNext(); with none outstanding there is nothing to answer
(R42). -/
def collaboratorAnswer (a : StreamAnswer) (s : State) : State :=
  match s.phase with
  | .idle => s
  | .busy c => takeAnswer c a s

/-- The reset input (R94, R95): every piece of the block's state to its reset value, whatever was in
progress. The host's memory, the outside's further actions, the port trace and the count of free bytes are
not the block's and stay. -/
def resetInput (s : State) : State :=
  { State.reset with
    memory := s.memory
    inputs := s.inputs
    trace := s.trace
    freeIndex := s.freeIndex }

end Sys2Proof.Machine
end

