-- ==== Sys2Proof/Machine/Step.lean ====
section
/-! DEFINITION. One step: the next input acts, or the engine does (spec/10_state.md R21, R22). -/

namespace Sys2Proof.Machine

/-- The state in which the command of packet q runs: q has left the queue (R22), and the engine knows whom to
answer and which bytes were written since q was sent. -/
def startPacket (q : Queued) (rest : List Queued) (s : State) : State :=
  { s with queue := rest, current := ⟨q.host, q.raced⟩ }

/-- One turn of the engine. IDLE with a packet at the head of the queue: take it whole and run its command,
or answer ILLEGAL_COMMAND (R52). IDLE with an empty queue: nothing (R93). BUSY: wait for the collaborator
(R101). -/
def engineTurn (s : State) : Host.Outcome State Fault Refusal :=
  match s.phase with
  | .busy _ => .next s
  | .idle =>
    match s.queue with
    | [] => .next s
    | q :: rest =>
      if framed q.words then
        match decode q.words with
        | .ok (i, _) => exec i (startPacket q rest s)
        | .error _ => .next (raiseStatus .illegalCommand (startPacket q rest s))
      else .fault .unframedPacket

/-- One step of the machine. -/
def step (s : State) : Host.Outcome State Fault Refusal :=
  match s.inputs with
  | [] => engineTurn s
  | .engine :: rest => engineTurn { s with inputs := rest }
  | .word host w :: rest => .next (acceptWord host w { s with inputs := rest })
  | .write addr b :: rest => .next (hostWrite addr b { s with inputs := rest })
  | .take host :: rest => .next (takeResponse host { s with inputs := rest })
  | .answer a :: rest => .next (collaboratorAnswer a { s with inputs := rest })
  | .reset :: rest => .next (resetInput { s with inputs := rest })

/-- s with the packet of table word w at the head of the command queue, the engine IDLE, and the next turn the
engine's: the very next step takes that packet and runs its command (log entry 11). -/
def State.withFetchWord (s : State) (nbits w : Nat) : State :=
  { s with
    phase := .idle
    queue := ⟨0, tablePacket nbits w, []⟩ :: s.queue
    inputs := .engine :: s.inputs }

end Sys2Proof.Machine
end

