-- ==== Sys2Proof/Machine/Assembler.lean ====
section
/-! DEFINITION. The text form of command sequences (spec/30_encoding.md R57): a line to the packet it stands
for. Characters are given as lists, so that the kernel can evaluate it. -/

namespace Sys2Proof.Machine

/-- What a line of text stands for. -/
inductive AsmLine where
  /-- nothing: an empty line, or a comment alone -/
  | blank
  /-- one packet -/
  | packet (words : List Word)
  /-- not a line of R57's form -/
  | rejected
deriving DecidableEq, Repr

/-- A blank character between the parts of a line. -/
def isBlank (c : Char) : Bool := c == ' ' || c == '\t' || c == '\r'

/-- The text without blanks at either side. -/
def trimBlanks (cs : List Char) : List Char :=
  ((cs.dropWhile isBlank).reverse.dropWhile isBlank).reverse

/-- The parts of a text between the separators. -/
def splitAtChar (sep : Char) : List Char → List (List Char)
  | [] => [[]]
  | c :: cs =>
    if c = sep then [] :: splitAtChar sep cs
    else
      match splitAtChar sep cs with
      | [] => [[c]]
      | part :: parts => (c :: part) :: parts

/-- The value of a digit, in either case for the letters. -/
def digitValue (c : Char) : Option Nat :=
  let n := c.toNat
  if 48 ≤ n ∧ n ≤ 57 then some (n - 48)
  else if 65 ≤ n ∧ n ≤ 70 then some (n - 55)
  else if 97 ≤ n ∧ n ≤ 102 then some (n - 87)
  else none

/-- The number a list of digits stands for in a base; acc is what the digits before it stand for. -/
def numeralFrom (base : Nat) : Nat → List Char → Option Nat
  | acc, [] => some acc
  | acc, c :: cs =>
    match digitValue c with
    | some d => if d < base then numeralFrom base (acc * base + d) cs else none
    | none => none

/-- A number of at least one digit. -/
def numeral (base : Nat) : List Char → Option Nat
  | [] => none
  | c :: cs => numeralFrom base 0 (c :: cs)

/-- A number in 0 to 2^32 - 1 as a word. -/
def wordOfNat (n : Nat) : Option Word := if n < 2 ^ 32 then some (BitVec.ofNat 32 n) else none

/-- An operand: a decimal or 0x hexadecimal literal in 0 to 2^32 - 1 (R57). -/
def asmLiteral : List Char → Option Word
  | '0' :: 'x' :: ds => (numeral 16 ds).bind wordOfNat
  | ds => (numeral 10 ds).bind wordOfNat

/-- The operands of a line, separated by commas; none at all where nothing stands there. -/
def asmOperands (cs : List Char) : Option (List Word) :=
  if trimBlanks cs = [] then some []
  else (splitAtChar ',' cs).mapM fun part => asmLiteral (trimBlanks part)

/-- The legal header word of a mnemonic (R51). -/
def mnemonicHeader (name : List Char) : Option Word :=
  if name = ['C', 'O', 'N', 'F', 'I', 'G'] then some 0x00000201#32
  else if name = ['G', 'E', 'T', '_', 'A'] then some 0x00000002#32
  else if name = ['G', 'E', 'T', '_', 'B'] then some 0x00000003#32
  else if name = ['G', 'E', 'T', '_', 'D', 'L', 'E', 'N'] then some 0x00000004#32
  else if name = ['H', 'A', 'S', 'H', '_', 'W', 'O', 'R', 'D'] then some 0x00000110#32
  else if name = ['H', 'A', 'S', 'H', '_', 'W', 'O', 'R', 'D', '_', 'A', 'B'] then some 0x00000311#32
  else if name = ['H', 'A', 'S', 'H', '_', 'B', 'U', 'F'] then some 0x00000220#32
  else if name = ['H', 'A', 'S', 'H', '_', 'F', 'I', 'L', 'E'] then some 0x00000121#32
  else if name = ['H', 'A', 'S', 'H', '_', 'K', 'E', 'Y', 'E', 'D'] then some 0x00000422#32
  else none

/-- A packet whose operand words are as many as its header says (R57: of .raw, its header's NOPS must equal the
number of words after it; of a command, R51's NOPS). -/
def asmPacket (ws : List Word) : AsmLine := if framed ws then .packet ws else .rejected

/-- One line: a command, a .raw packet, or nothing; `;` starts a comment (R57). -/
def assembleLine (line : List Char) : AsmLine :=
  let text := trimBlanks (line.takeWhile fun c => c != ';')
  let name := text.takeWhile fun c => !isBlank c
  let rest := text.dropWhile fun c => !isBlank c
  if text = [] then .blank
  else
    match asmOperands rest with
    | none => .rejected
    | some ws =>
      if name = ['.', 'r', 'a', 'w'] then asmPacket ws
      else
        match mnemonicHeader name with
        | none => .rejected
        | some h => asmPacket (h :: ws)

/-- A text: the packets of its lines in order; none where a line is not of R57's form. -/
def assemble (text : List Char) : Option (List (List Word)) :=
  (splitAtChar '\n' text).foldr
    (fun line acc =>
      match assembleLine line, acc with
      | .blank, ps => ps
      | .packet ws, some ps => some (ws :: ps)
      | _, _ => none)
    (some [])

/-- The words a host puts on the command port to send a packet (R48). -/
def sendPacket (host : Nat) (words : List Word) : List Input := words.map (.word host)

end Sys2Proof.Machine
end

