-- ==== Sys2Proof/Machine/Flags.lean ====
section
/-! DEFINITION. The response word of a command: the block has no flags register, the response STATUS is
its only condition code (spec/10_state.md R25, spec/30_encoding.md R54, spec/60_exceptions.md R78). -/

namespace Sys2Proof.Machine

/-- The 4-bit STATUS code (R78). -/
def statusCode : Status → BitVec 4
  | .ok => 0x0#4
  | .ioError => 0x1#4
  | .illegalCommand => 0x2#4
  | .notConfigured => 0x3#4
  | .alreadyConfigured => 0x4#4
  | .rangeError => 0x5#4
  | .busError => 0x6#4

/-- The two words of a response: STATUS in word 0 bits 3:0 with bits 31:4 zero, VALUE in word 1 (R54). -/
def responseWords (r : Response) : List Word := [0#28 ++ statusCode r.status, r.value]

end Sys2Proof.Machine
end

