-- ==== Sys2Proof/Machine/Stream.lean ====
section
/-! DEFINITION. The file-stream collaborator's duty (spec/20_memory.md R42, R43): how it turns a file's
bytes into answers. The engine assumes nothing of this: its inputs hold any answers (log entry 10). -/

namespace Sys2Proof.Machine

/-- The answers for the bytes of an opened file: LE32 of each 4-byte record, then End; a trailing partial
record gives an extra zero-padded Word, or End, or Error, by the policy (R43, D19). -/
def fileAnswersBy (policy : Config.TailPolicy) : List Byte → List StreamAnswer
  | [] => [.endOfStream]
  | b0 :: b1 :: b2 :: b3 :: rest => .word (le32 b0 b1 b2 b3) :: fileAnswersBy policy rest
  | tail =>
    match policy with
    | .pad => (chunkWords tail).map .word ++ [.endOfStream]
    | .drop => [.endOfStream]
    | .fail => [.error]

/-- The answers of the collaborator under the platform's FILE_TAIL_POLICY: a file that cannot be opened
(none) is reported as Error on the first StreamNext() (R42). -/
def fileAnswers : Option (List Byte) → List StreamAnswer
  | none => [.error]
  | some bs => fileAnswersBy Config.fileTailPolicy bs

end Sys2Proof.Machine
end

