-- ==== Sys2Proof/Safety.lean ====
section
/-! DEFINITION. What counts as a safe run, in the terms the statements use. -/

namespace Sys2Proof.Machine

/-- The words of a packet still arriving are not yet a whole packet: fewer than its header asks for (R99). -/
def notYetWhole : List Word → Prop
  | [] => True
  | h :: ops => (h :: ops).length < packetLength h

/-- The invariant of the machine. -/
structure Inv (s : State) : Prop where
  /-- the memory is in canonical form -/
  memory_wf : Memory.wf s.memory
  /-- the command queue holds whole packets only (R22, R99) -/
  queue_framed : ∀ q ∈ s.queue, framed q.words = true
  /-- what is arriving on the port is not yet a whole packet (R99) -/
  arriving_part : notYetWhole s.arriving.words
  /-- a file is being read only with an instance configured (R69) -/
  busy_configured : s.phase ≠ .idle → s.cfgValid = true
  /-- VALUE is 0 in every response whose STATUS is not OK (R54) -/
  error_value_zero : ∀ r ∈ s.responses, r.status ≠ .ok → r.value = 0#32
  /-- nothing races with a packet of which no word was sent (R41) -/
  arriving_free : s.arriving.words = [] → s.arriving.raced = []

/-- The machine did not stop: the step has a next state. -/
def runsOn (o : Host.Outcome State Fault Refusal) : Prop := ∃ t, o = .next t

/-- The host kept its duty for this buffer: none of its bytes was written since the command that runs was
sent (R41). -/
def dutyKept (s : State) (addr len : Word) : Prop :=
  ∀ a ∈ s.current.raced, a < addr.toNat ∨ addr.toNat + len.toNat ≤ a

/-- Memory holds the bytes bs from addr on. -/
def holdsBytes (s : State) (addr : Word) (bs : List Byte) : Prop :=
  ∀ i, ∀ h : i < bs.length, Memory.read s.memory (addr.toNat + i) = some bs[i]

/-- The read events of a buffer of n bytes at addr, in increasing order (R37). -/
def readEvents (addr n : Nat) : List PortEvent := (List.range n).map fun i => .memRead (addr + i)

/-- The bytes the reads of a buffer at addr give when memory holds bs there and k free bytes have been drawn:
the byte in memory, or the next free byte where a host has written it since the command was sent (R41). -/
def seenBytes (raced : List Nat) : Nat → Nat → List Byte → List Byte
  | _, _, [] => []
  | k, addr, b :: bs =>
    if addr ∈ raced then Config.racedByte k :: seenBytes raced (k + 1) (addr + 1) bs
    else b :: seenBytes raced k (addr + 1) bs

/-- How many of the n bytes at addr a host has written since the command was sent. -/
def drawnBytes (raced : List Nat) (addr n : Nat) : Nat :=
  ((List.range n).filter fun i => decide (addr + i ∈ raced)).length

/-- The state after a command that ends with one response: everything the record does not list is unchanged.
`events` are the port events before the response. -/
def afterResponse (s : State) (status : Status) (value : Word) (events : List PortEvent) : State :=
  { s with
    phase := .idle
    current := ⟨0, []⟩
    responses := s.responses ++ [⟨s.current.host, status, value⟩]
    trace := s.trace ++ events ++ [.response ⟨s.current.host, status, value⟩] }

/-- The engine has the next turn: no input is waiting, or the next one is the engine's. -/
def engineMoves (s : State) : Prop := s.inputs = [] ∨ ∃ rest, s.inputs = .engine :: rest

/-- The state in which the command of the head packet q runs: q has left the queue, the turn is spent. -/
def started (s : State) (q : Queued) (rest : List Queued) : State :=
  { s with queue := rest, current := ⟨q.host, q.raced⟩, inputs := s.inputs.tail }

/-- CFG_VALID, A and B after the packets ps have been answered in order, from their values in s: the first whole
CONFIG packet of an unconfigured block loads them (R72), nothing else does (R26). -/
def coefficientsAfter (s : State) (ps : List Queued) : Bool × Word × Word :=
  ps.foldl
    (fun r q =>
      match decode q.words with
      | .ok (.config a b, _) => if r.1 then r else (true, a, b)
      | _ => r)
    (s.cfgValid, s.paramA, s.paramB)

/-- n steps of the machine, stopping at the first fault or refusal. -/
abbrev run (n : Nat) (s : State) : Host.Outcome State Fault Refusal := Host.Core.run Sys2Proof.core n s

/-- The nine legal header words of R51. -/
def nineHeaders : List Word :=
  [0x00000201#32, 0x00000002#32, 0x00000003#32, 0x00000004#32, 0x00000110#32, 0x00000311#32,
    0x00000220#32, 0x00000121#32, 0x00000422#32]

/-- A state with A and B hidden while no instance exists: what an observer may rely on (U16). -/
def hideUnconfigured (s : State) : State :=
  if s.cfgValid then s else { s with paramA := 0#32, paramB := 0#32 }

end Sys2Proof.Machine
end

