-- ==== Sys2Proof/Certificates/Slice0/Obligations.lean ====
section
/-! DEFINITION. The statements for the provers. -/

open Sys2Proof Sys2Proof.Machine

/-! ## Encoding -/

/-- Decoder and encoder agree in both directions, for every command, every operand value and whatever
words follow (30_encoding.md sections 1 and 2). -/
def Obligations.DecodeIffEncoded : Prop :=
  ∀ (i : Instr) (p rest : List Word), decode p = .ok (i, rest) ↔ p = encode i ++ rest

/-- R52, R56: a header is legal exactly when its three fields say so, exactly when it is one of the nine words;
a whole packet decodes exactly when its header is legal, whatever its operand words; and the engine consumes a whole packet
with any other header and answers ILLEGAL_COMMAND, with no other effect. -/
def Obligations.LegalHeadersAreTheNine : Prop :=
  (∀ h : Word, legalHeader h = true ↔
    h.toNat / 2 ^ 12 = 0 ∧ (h.toNat % 2 ^ 8, h.toNat / 2 ^ 8 % 2 ^ 4) ∈
      [(0x01, 2), (0x02, 0), (0x03, 0), (0x04, 0), (0x10, 1), (0x11, 3), (0x20, 2), (0x21, 1), (0x22, 4)]) ∧
  (∀ h : Word, legalHeader h = true ↔ h ∈ nineHeaders) ∧
  (∀ (h : Word) (ops : List Word), framed (h :: ops) = true →
    (legalHeader h = true ↔ ∃ i, decode (h :: ops) = .ok (i, []))) ∧
  (∀ (s : State) (host : Nat) (h : Word) (ops : List Word) (raced : List Nat) (rest : List Queued),
    s.phase = .idle → engineMoves s → s.queue = ⟨host, h :: ops, raced⟩ :: rest →
    framed (h :: ops) = true → h ∉ nineHeaders →
    step s = .next (afterResponse (started s ⟨host, h :: ops, raced⟩ rest) .illegalCommand 0#32 []))

/-- R53: the length of a packet is 1 + header[11:8] words, legal or not, and `framed` says just that. -/
def Obligations.PacketLengthFromHeader : Prop :=
  ∀ (h : Word) (ops : List Word),
    packetLength h = 1 + h.toNat / 2 ^ 8 % 2 ^ 4 ∧
    (framed (h :: ops) = true ↔ ops.length = h.toNat / 2 ^ 8 % 2 ^ 4)

/-- A few packets written out from R51 decode to the commands they stand for, and a few of section 2.6 of
95_test_vectors.md are refused. -/
def Obligations.SamplePacketsDecode : Prop :=
  decode [0x00000311#32, 7#32, 3#32, 11#32] = .ok (.hashWordAb 7#32 3#32 11#32, []) ∧
  decode [0x00000220#32, 0x1000#32, 5#32] = .ok (.hashBuf 0x1000#32 5#32, []) ∧
  decode [0x00000201#32, 3#32, 5#32] = .ok (.config 3#32 5#32, []) ∧
  decode [0x00000210#32, 1#32, 2#32] = .error .wrongOperandCount ∧
  decode [0x00001110#32, 1#32] = .error .reservedBits ∧
  decode [0x00000005#32] = .error .unassignedOpcode

/-- A host that sends the words of a whole packet on a free command port gets it into the queue whole, and the words of
a packet cut short stay on the port (30_encoding.md section 1; 70_reset_and_hazards.md section 3). The third clause is the
model's choice, log entry 6: a word of another host is not transferred meanwhile. -/
def Obligations.PacketEntersQueueWhole : Prop :=
  (∀ (s : State) (host : Nat) (p : List Word) (rest : List Input),
    framed p = true → s.arriving.words = [] → s.arriving.raced = [] → s.inputs = sendPacket host p ++ rest →
    run p.length s =
      .next { s with queue := s.queue ++ [⟨host, p, []⟩], arriving := ⟨0, [], []⟩, inputs := rest }) ∧
  (∀ (s : State) (host : Nat) (p : List Word) (rest : List Input),
    p ≠ [] → notYetWhole p → s.arriving.words = [] → s.arriving.raced = [] → s.inputs = sendPacket host p ++ rest →
    run p.length s = .next { s with arriving := ⟨host, p, []⟩, inputs := rest }) ∧
  (∀ (s : State) (host : Nat) (w : Word) (rest : List Input),
    s.arriving.words ≠ [] → s.arriving.host ≠ host → s.inputs = .word host w :: rest →
    step s = .next { s with inputs := rest })

/-- Whatever the text, a line that assembles to a packet gives one whole packet (30_encoding.md section 5). -/
def Obligations.AssembledPacketsAreWhole : Prop :=
  ∀ (line : List Char) (ws : List Word), assembleLine line = .packet ws → framed ws = true

/-! ## The step -/

/-- When the engine moves, is IDLE, and the head of the queue is a whole packet of a well-formed command, the step runs
that command, with the packet gone from the queue, its host and the addresses written since it was sent at
hand, and the turn spent. -/
def Obligations.StepRunsDecodedCommand : Prop :=
  ∀ (s : State) (q : Queued) (rest : List Queued) (i : Instr) (tail : List Word),
    s.phase = .idle → engineMoves s → s.queue = q :: rest → framed q.words = true →
    decode q.words = .ok (i, tail) → i.wf = true →
    step s = exec i (started s q rest)

/-- Every step from a state with the invariant gives a state with the invariant: the memory stays canonical, the
queue holds whole packets only, the port holds less than one, a file is read only with an instance, and VALUE is 0 in every
error response. -/
def Obligations.StepKeepsInvariant : Prop :=
  ∀ s t : State, Inv s → step s = .next t → Inv t

/-- The state after reset has the invariant. -/
def Obligations.ResetHasInvariant : Prop := Inv State.reset

/-- From a state with the invariant no step stops the machine: every packet, legal or not, and every input gives a next
state (60_exceptions.md section 1: no operation is fatal). -/
def Obligations.EngineNeverStops : Prop := ∀ s : State, Inv s → runsOn (step s)

/-- With an empty queue an IDLE engine does nothing, and from then on only the reset input touches A, B, CFG_VALID without
a command (60_exceptions.md section 5). -/
def Obligations.IdleEngineDoesNothing : Prop :=
  ∀ s : State, s.phase = .idle → s.queue = [] →
    (engineMoves s → step s = .next { s with inputs := s.inputs.tail }) ∧
    (∀ t, step s = .next t → (∀ rest, s.inputs ≠ .reset :: rest) →
      t.paramA = s.paramA ∧ t.paramB = s.paramB ∧ t.cfgValid = s.cfgValid ∧ t.phase = .idle)

/-! ## Parameter commands -/

/-- R72: CONFIG. -/
def Obligations.ConfigOncePerReset : Prop :=
  ∀ (a b : Word) (s : State),
    (∀ p rest, decode p = .ok (.config a b, rest) ↔ p = 0x00000201#32 :: a :: b :: rest) ∧
    (s.cfgValid = false →
      exec (.config a b) s =
        .next (afterResponse { s with paramA := a, paramB := b, cfgValid := true } .ok 0#32 [])) ∧
    (s.cfgValid = true → exec (.config a b) s = .next (afterResponse s .alreadyConfigured 0#32 []))

/-- R73: GET_A. -/
def Obligations.GetAReturnsStoredA : Prop :=
  ∀ s : State,
    (∀ p rest, decode p = .ok (.getA, rest) ↔ p = 0x00000002#32 :: rest) ∧
    (s.cfgValid = true → exec .getA s = .next (afterResponse s .ok s.paramA [])) ∧
    (s.cfgValid = false → exec .getA s = .next (afterResponse s .notConfigured 0#32 []))

/-- R74: GET_B. -/
def Obligations.GetBReturnsStoredB : Prop :=
  ∀ s : State,
    (∀ p rest, decode p = .ok (.getB, rest) ↔ p = 0x00000003#32 :: rest) ∧
    (s.cfgValid = true → exec .getB s = .next (afterResponse s .ok s.paramB [])) ∧
    (s.cfgValid = false → exec .getB s = .next (afterResponse s .notConfigured 0#32 []))

/-- R75: GET_DLEN, configured or not. -/
def Obligations.DigestLengthIsFour : Prop :=
  ∀ s : State,
    (∀ p rest, decode p = .ok (.getDlen, rest) ↔ p = 0x00000004#32 :: rest) ∧
    exec .getDlen s = .next (afterResponse s .ok 4#32 [])

/-- R19: once configured, A, B and CFG_VALID stay as they are over every run without a reset; a second CONFIG is rejected;
HASH_WORD_AB uses its own and leaves them alone. -/
def Obligations.CoefficientsStayUntilReset : Prop :=
  (∀ (n : Nat) (s t : State), s.cfgValid = true → .reset ∉ s.inputs → run n s = .next t →
    t.paramA = s.paramA ∧ t.paramB = s.paramB ∧ t.cfgValid = true) ∧
  (∀ (a b : Word) (s : State), s.cfgValid = true →
    exec (.config a b) s = .next (afterResponse s .alreadyConfigured 0#32 [])) ∧
  (∀ (key a b : Word) (s : State), s.cfgValid = true → ∃ t, exec (.hashWordAb key a b) s = .next t ∧
    t.responses = s.responses ++ [⟨s.current.host, .ok, mar a b key⟩] ∧
    t.paramA = s.paramA ∧ t.paramB = s.paramB)

/-- While no instance exists, A and B can be neither seen nor used: with any other two values in them, a run from an IDLE
unconfigured state gives the same responses, the same port events and the same state, but for A and B themselves while
they hold no value. (So the model's choice of their reset value, log entry 1, shows nowhere.) -/
def Obligations.UnconfiguredCoefficientsInvisible : Prop :=
  ∀ (n : Nat) (s t : State) (a b : Word), s.cfgValid = false → s.phase = .idle → run n s = .next t →
    ∃ t', run n { s with paramA := a, paramB := b } = .next t' ∧ hideUnconfigured t' = hideUnconfigured t

/-! ## Arithmetic -/

/-- R58: product and sum wrap at 32 bits, then the exact remainder; wrapping once after the sum gives the same. -/
def Obligations.MarWrapsThenReduces : Prop :=
  ∀ a b x : Word,
    (mar a b x).toNat = ((a.toNat * x.toNat % 2 ^ 32 + b.toNat) % 2 ^ 32) % Config.modulus ∧
    (a.toNat * x.toNat % 2 ^ 32 + b.toNat) % 2 ^ 32 = (a.toNat * x.toNat + b.toNat) % 2 ^ 32

/-- R59: range, the multiple of M taken away, small t, a = 0, x = 0, and no dependence but on (a, b, x, M). -/
def Obligations.MarProperties : Prop :=
  ∀ a b x : Word,
    ((mar a b x).toNat < Config.modulus ∧ Config.modulus < 2 ^ 32 ∧
      ((mar a b x).getLsbD 31 = true → 2 ^ 31 < Config.modulus)) ∧
    ((affine a b x).toNat < 4 * Config.modulus ∧
      ∃ k ∈ [0, 1, 2, 3], (affine a b x).toNat = (mar a b x).toNat + k * Config.modulus) ∧
    (((affine a b x).toNat < Config.modulus → mar a b x = affine a b x) ∧
      ((affine a b x).toNat < 2 ^ 30 → mar a b x = affine a b x)) ∧
    (mar 0#32 b x).toNat = b.toNat % Config.modulus ∧
    (mar a b 0#32).toNat = b.toNat % Config.modulus ∧
    mar a b x = marBy Config.modulus a b x

/-- R32: the word of four bytes, as a sum and as a concatenation; and every folding operation makes its words so: word k of
any bytes that are folded (a buffer, a key, a message) is LE32 of the four bytes from position 4k on, 0 where there is none;
Fold sums just these words; and each record of a file gives LE32 of its four bytes in file order. -/
def Obligations.ChunkWordIsLittleEndian : Prop :=
  (∀ b0 b1 b2 b3 : Byte,
    (le32 b0 b1 b2 b3).toNat = b0.toNat + 2 ^ 8 * b1.toNat + 2 ^ 16 * b2.toNat + 2 ^ 24 * b3.toNat ∧
    le32 b0 b1 b2 b3 = b3 ++ b2 ++ b1 ++ b0) ∧
  (∀ bs : List Byte, (chunkWords bs).length = (bs.length + 3) / 4) ∧
  (∀ (bs : List Byte) (k : Nat), 4 * k < bs.length →
    (chunkWords bs)[k]? =
      some (le32 (bs.getD (4 * k) 0) (bs.getD (4 * k + 1) 0) (bs.getD (4 * k + 2) 0) (bs.getD (4 * k + 3) 0))) ∧
  (∀ (addr len : Word) (s : State) (bs : List Byte),
    (readBytes len.toNat addr.toNat s).1 = .value bs →
    (fold addr len s).1 = .value (sumWords 0#32 (chunkWords bs))) ∧
  (∀ (policy : Config.TailPolicy) (bs : List Byte) (k : Nat), 4 * k + 4 ≤ bs.length →
    (fileAnswersBy policy bs)[k]? =
      some (.word
        (le32 (bs.getD (4 * k) 0) (bs.getD (4 * k + 1) 0) (bs.getD (4 * k + 2) 0) (bs.getD (4 * k + 3) 0))))

/-- R33: the four digest bytes of a response, byte 0 first; LE32 of them is VALUE again. -/
def Obligations.DigestBytesLittleEndian : Prop :=
  ∀ r : Response,
    (digest r).map BitVec.toNat =
      [r.value.toNat % 2 ^ 8, r.value.toNat / 2 ^ 8 % 2 ^ 8, r.value.toNat / 2 ^ 16 % 2 ^ 8,
        r.value.toNat / 2 ^ 24 % 2 ^ 8] ∧
    chunkWords (digest r) = [r.value]

/-- R64: the five laws of Fold. -/
def Obligations.FoldLaws : Prop :=
  (∀ (addr len : Word) (s : State) (bs : List Byte),
    (readBytes len.toNat addr.toNat s).1 = .value bs → (fold addr len s).1 = .value (foldBytes bs)) ∧
  (∀ bs : List Byte,
    (foldBytes bs).toNat = (∑ i : Fin bs.length, bs[i].toNat * 2 ^ (8 * (i.val % 4))) % 2 ^ 32) ∧
  (∀ (bs : List Byte) (n : Nat), foldBytes (bs ++ List.replicate n 0#8) = foldBytes bs) ∧
  (∀ x y : List Byte, 4 ∣ x.length → foldBytes (x ++ y) = foldBytes x + foldBytes y) ∧
  (∃ x y : List Byte, ¬ 4 ∣ x.length ∧ foldBytes (x ++ y) ≠ foldBytes x + foldBytes y) ∧
  (∀ x y : List Byte, (chunkWords x).Perm (chunkWords y) → foldBytes x = foldBytes y) ∧
  foldBytes [] = 0#32

/-! ## Word-form hashes -/

/-- R60: HASH_WORD; and its determinism: as long as no reset comes, the same key gives the same VALUE later. -/
def Obligations.HashWordUsesInstance : Prop :=
  ∀ (key : Word) (s : State),
    (∀ p rest, decode p = .ok (.hashWord key, rest) ↔ p = 0x00000110#32 :: key :: rest) ∧
    (s.cfgValid = true →
      exec (.hashWord key) s = .next (afterResponse s .ok (mar s.paramA s.paramB key) [])) ∧
    (s.cfgValid = false → exec (.hashWord key) s = .next (afterResponse s .notConfigured 0#32 [])) ∧
    (mar s.paramA s.paramB key).toNat =
      (s.paramA.toNat * key.toNat + s.paramB.toNat) % 2 ^ 32 % Config.modulus ∧
    (∀ (n : Nat) (t : State), s.cfgValid = true → .reset ∉ s.inputs → run n s = .next t →
      exec (.hashWord key) t = .next (afterResponse t .ok (mar s.paramA s.paramB key) []))

/-- R61: HASH_WORD_AB. -/
def Obligations.HashWordAbUsesItsOwnCoefficients : Prop :=
  ∀ (key a b : Word) (s : State),
    (∀ p rest, decode p = .ok (.hashWordAb key a b, rest) ↔ p = 0x00000311#32 :: key :: a :: b :: rest) ∧
    (s.cfgValid = true → exec (.hashWordAb key a b) s = .next (afterResponse s .ok (mar a b key) [])) ∧
    (s.cfgValid = false →
      exec (.hashWordAb key a b) s = .next (afterResponse s .notConfigured 0#32 [])) ∧
    exec (.hashWordAb key s.paramA s.paramB) s = exec (.hashWord key) s

/-- R62: a HASH_WORD answers the same VALUE after any number of HASH_WORD_AB commands as before them. -/
def Obligations.OverrideIndependence : Prop :=
  ∀ (s : State) (host : Nat) (key : Word) (overrides : List (Word × Word × Word)),
    s.phase = .idle → s.cfgValid = true → s.inputs = [] →
    s.queue = ⟨host, encode (.hashWord key), []⟩ ::
      (overrides.map fun o => ⟨host, encode (.hashWordAb o.1 o.2.1 o.2.2), []⟩) ++
      [⟨host, encode (.hashWord key), []⟩] →
    ∃ t, run (overrides.length + 2) s = .next t ∧
      t.responses = s.responses ++ ⟨host, .ok, mar s.paramA s.paramB key⟩ ::
        (overrides.map fun o => ⟨host, .ok, mar o.2.1 o.2.2 o.1⟩) ++
        [⟨host, .ok, mar s.paramA s.paramB key⟩]

/-! ## Byte-form hashes -/

/-- R68: HASH_BUF, in every case: not configured, out of range, the first unreadable byte, and success, each with the
reads it issues. The model's choice, log entry 5: a byte that a host wrote since the first word of the command's packet
reads as the next free byte (`seenBytes`), which moves the count of free bytes on (`drawnBytes`). -/
def Obligations.HashBufHashesItsBuffer : Prop :=
  ∀ (addr len : Word) (s : State),
    (∀ p rest, decode p = .ok (.hashBuf addr len, rest) ↔ p = 0x00000220#32 :: addr :: len :: rest) ∧
    (s.cfgValid = false → exec (.hashBuf addr len) s = .next (afterResponse s .notConfigured 0#32 [])) ∧
    (s.cfgValid = true → 2 ^ 32 < addr.toNat + len.toNat →
      exec (.hashBuf addr len) s = .next (afterResponse s .rangeError 0#32 [])) ∧
    (s.cfgValid = true → addr.toNat + len.toNat ≤ 2 ^ 32 →
      ∀ bs, bs.length = len.toNat → holdsBytes s addr bs →
      exec (.hashBuf addr len) s =
        .next (afterResponse
          { s with freeIndex := s.freeIndex + drawnBytes s.current.raced addr.toNat len.toNat } .ok
          (mar s.paramA s.paramB (foldBytes (seenBytes s.current.raced s.freeIndex addr.toNat bs)))
          (readEvents addr.toNat len.toNat))) ∧
    (s.cfgValid = true → addr.toNat + len.toNat ≤ 2 ^ 32 →
      ∀ k < len.toNat, (∀ i < k, Memory.read s.memory (addr.toNat + i) ≠ none) →
      Memory.read s.memory (addr.toNat + k) = none →
      exec (.hashBuf addr len) s =
        .next (afterResponse
          { s with freeIndex := s.freeIndex + drawnBytes s.current.raced addr.toNat k } .busError 0#32
          (readEvents addr.toNat (k + 1))))

/-- R36: the range check without wrap-around; an empty buffer is in range everywhere; a command with a buffer out of range
answers RANGE_ERROR and reads nothing; so no read of any command ever lies past the top of the address space. -/
def Obligations.BuffersNeverWrap : Prop :=
  (∀ addr len : Word, inRange addr len = true ↔ addr.toNat + len.toNat ≤ 2 ^ 32) ∧
  (∀ addr : Word, inRange addr 0#32 = true) ∧
  (∀ (addr len : Word) (s : State), s.cfgValid = true → inRange addr len = false →
    exec (.hashBuf addr len) s = .next (afterResponse s .rangeError 0#32 [])) ∧
  (∀ (kaddr klen maddr mlen : Word) (s : State), s.cfgValid = true →
    inRange kaddr klen = false ∨ inRange maddr mlen = false →
    exec (.hashKeyed kaddr klen maddr mlen) s = .next (afterResponse s .rangeError 0#32 [])) ∧
  (∀ (i : Instr) (s t : State), exec i s = .next t →
    ∃ events, t.trace = s.trace ++ events ∧ ∀ a, .memRead a ∈ events → a < 2 ^ 32)

/-- 20_memory.md section 4: where no host wrote the buffer since the command was sent (from the first word of its packet:
log entry 5), HASH_BUF hashes just the bytes memory holds, and draws no free byte. -/
def Obligations.HostDutyGivesMemoryBytes : Prop :=
  ∀ (addr len : Word) (s : State) (bs : List Byte),
    s.cfgValid = true → addr.toNat + len.toNat ≤ 2 ^ 32 → bs.length = len.toNat → holdsBytes s addr bs →
    dutyKept s addr len →
    exec (.hashBuf addr len) s =
      .next (afterResponse s .ok (mar s.paramA s.paramB (foldBytes bs)) (readEvents addr.toNat len.toNat))

/-- R66: empty input gives MAR(A, B, 0) = B mod M, from a buffer at any address and from an empty stream. -/
def Obligations.EmptyInputHashesToB : Prop :=
  (∀ bs : List Byte, bs = [] → foldBytes bs = 0#32) ∧ sumWords 0#32 [] = 0#32 ∧
  (∀ (addr : Word) (s : State), s.cfgValid = true →
    exec (.hashBuf addr 0#32) s = .next (afterResponse s .ok (mar s.paramA s.paramB 0#32) [])) ∧
  (∀ (s : State) (h : Word) (rest : List Input), s.phase = .busy ⟨h, 0#32, 0⟩ →
    s.inputs = .answer .endOfStream :: rest →
    step s = .next (afterResponse { s with inputs := rest } .ok (mar s.paramA s.paramB 0#32) [])) ∧
  (∀ a b : Word, (mar a b 0#32).toNat = b.toNat % Config.modulus)

/-- R70: HASH_KEYED, in every case: not configured, key range, message range, an unreadable byte of the key, one of the
message after the whole key, and success, each with the reads it issues. The model's choice, log entry 5: a byte that a host
wrote since the first word of the command's packet reads as the next free byte (`seenBytes`), which moves the count of free
bytes on (`drawnBytes`). -/
def Obligations.HashKeyedFoldsKeyThenMessage : Prop :=
  ∀ (kaddr klen maddr mlen : Word) (s : State),
    (∀ p rest, decode p = .ok (.hashKeyed kaddr klen maddr mlen, rest) ↔
      p = 0x00000422#32 :: kaddr :: klen :: maddr :: mlen :: rest) ∧
    (s.cfgValid = false →
      exec (.hashKeyed kaddr klen maddr mlen) s = .next (afterResponse s .notConfigured 0#32 [])) ∧
    (s.cfgValid = true →
      (2 ^ 32 < kaddr.toNat + klen.toNat ∨ 2 ^ 32 < maddr.toNat + mlen.toNat) →
      exec (.hashKeyed kaddr klen maddr mlen) s = .next (afterResponse s .rangeError 0#32 [])) ∧
    (s.cfgValid = true → kaddr.toNat + klen.toNat ≤ 2 ^ 32 → maddr.toNat + mlen.toNat ≤ 2 ^ 32 →
      (∀ k < klen.toNat, (∀ i < k, Memory.read s.memory (kaddr.toNat + i) ≠ none) →
        Memory.read s.memory (kaddr.toNat + k) = none →
        exec (.hashKeyed kaddr klen maddr mlen) s =
          .next (afterResponse
            { s with freeIndex := s.freeIndex + drawnBytes s.current.raced kaddr.toNat k } .busError 0#32
            (readEvents kaddr.toNat (k + 1)))) ∧
      (∀ kbs, kbs.length = klen.toNat → holdsBytes s kaddr kbs →
        (∀ k < mlen.toNat, (∀ i < k, Memory.read s.memory (maddr.toNat + i) ≠ none) →
          Memory.read s.memory (maddr.toNat + k) = none →
          exec (.hashKeyed kaddr klen maddr mlen) s =
            .next (afterResponse
              { s with freeIndex := s.freeIndex + drawnBytes s.current.raced kaddr.toNat klen.toNat +
                  drawnBytes s.current.raced maddr.toNat k } .busError 0#32
              (readEvents kaddr.toNat klen.toNat ++ readEvents maddr.toNat (k + 1)))) ∧
        (∀ mbs, mbs.length = mlen.toNat → holdsBytes s maddr mbs →
          exec (.hashKeyed kaddr klen maddr mlen) s =
            .next (afterResponse
              { s with freeIndex := s.freeIndex + drawnBytes s.current.raced kaddr.toNat klen.toNat +
                  drawnBytes s.current.raced maddr.toNat mlen.toNat } .ok
              (mar s.paramA s.paramB
                (foldBytes (seenBytes s.current.raced s.freeIndex kaddr.toNat kbs) +
                  foldBytes (seenBytes s.current.raced
                    (s.freeIndex + drawnBytes s.current.raced kaddr.toNat klen.toNat) maddr.toNat mbs)))
              (readEvents kaddr.toNat klen.toNat ++ readEvents maddr.toNat mlen.toNat)))))

/-- An empty key gives the HASH_BUF of the message alone, an empty message that of the key alone, in every
state, as whole states (41_fold_hash.md section 4, corner cases). -/
def Obligations.EmptyKeyOrMessageIsHashBuf : Prop :=
  ∀ (addr addr' len : Word) (s : State),
    exec (.hashKeyed addr' 0#32 addr len) s = exec (.hashBuf addr len) s ∧
    exec (.hashKeyed addr len addr' 0#32) s = exec (.hashBuf addr len) s

/-- Swapping key and message gives the same response where both are readable and no host raced with them
(log entry 5; 41_fold_hash.md section 4, corner cases). -/
def Obligations.KeyAndMessageCommute : Prop :=
  ∀ (kaddr klen maddr mlen : Word) (s : State) (kbs mbs : List Byte),
    kbs.length = klen.toNat → holdsBytes s kaddr kbs → mbs.length = mlen.toNat → holdsBytes s maddr mbs →
    dutyKept s kaddr klen → dutyKept s maddr mlen →
    ∃ t u, exec (.hashKeyed kaddr klen maddr mlen) s = .next t ∧
      exec (.hashKeyed maddr mlen kaddr klen) s = .next u ∧ t.responses = u.responses

/-- R69: HASH_FILE, in every case: not configured; opening the stream; from any BUSY state, taking one answer, a Word, End or
Error, whatever came before it; leaving the file as it is at any other input but a reset; a whole run that ends in End or in
Error after any words; and waiting as long as the collaborator does not answer. That the next StreamNext() is issued in the
step that opens the stream or takes a Word is the model's inference, log entry 16. -/
def Obligations.HashFileHashesItsStream : Prop :=
  ∀ (h : Word) (s : State),
    (∀ p rest, decode p = .ok (.hashFile h, rest) ↔ p = 0x00000121#32 :: h :: rest) ∧
    (s.cfgValid = false → exec (.hashFile h) s = .next (afterResponse s .notConfigured 0#32 [])) ∧
    (s.cfgValid = true →
      exec (.hashFile h) s =
        .next { s with phase := .busy ⟨h, 0#32, 0⟩, trace := s.trace ++ [.streamOpen h, .streamNext] }) ∧
    (∀ (c : FileRun) (rest : List Input), s.phase = .busy c →
      (∀ w, s.inputs = .answer (.word w) :: rest →
        step s = .next
          { s with
            phase := .busy ⟨c.handle, c.acc + w, c.taken + 1⟩
            inputs := rest
            trace := s.trace ++ [.streamNext] }) ∧
      (s.inputs = .answer .endOfStream :: rest →
        step s = .next (afterResponse { s with inputs := rest } .ok (mar s.paramA s.paramB c.acc) [])) ∧
      (s.inputs = .answer .error :: rest →
        step s = .next (afterResponse { s with inputs := rest } .ioError 0#32 [])) ∧
      (∀ e, s.inputs = e :: rest → (∀ a, e ≠ .answer a) → e ≠ .reset →
        ∃ t, step s = .next t ∧ t.phase = .busy c ∧ t.inputs = rest ∧ t.current = s.current ∧
          t.paramA = s.paramA ∧ t.paramB = s.paramB ∧ t.cfgValid = s.cfgValid)) ∧
    (∀ (host : Nat) (raced : List Nat) (q : List Queued) (ws : List Word) (rest : List Input),
      s.cfgValid = true → s.phase = .idle → s.queue = ⟨host, encode (.hashFile h), raced⟩ :: q →
      (s.inputs = .engine :: (ws.map fun w => .answer (.word w)) ++ .answer .endOfStream :: rest →
        run (ws.length + 2) s =
          .next (afterResponse { s with queue := q, current := ⟨host, raced⟩, inputs := rest } .ok
            (mar s.paramA s.paramB (sumWords 0#32 ws))
            (.streamOpen h :: List.replicate (ws.length + 1) .streamNext))) ∧
      (s.inputs = .engine :: (ws.map fun w => .answer (.word w)) ++ .answer .error :: rest →
        run (ws.length + 2) s =
          .next (afterResponse { s with queue := q, current := ⟨host, raced⟩, inputs := rest } .ioError 0#32
            (.streamOpen h :: List.replicate (ws.length + 1) .streamNext)))) ∧
    (∀ c, s.phase = .busy c → engineMoves s → step s = .next { s with inputs := s.inputs.tail })

/-- While the collaborator gives no answer and no reset comes, a HASH_FILE stays BUSY over every run: its partial result
stands, no command starts and none is answered (70_reset_and_hazards.md section 3, the HASH_FILE wait). -/
def Obligations.HashFileWaitsForItsCollaborator : Prop :=
  ∀ (n : Nat) (s t : State) (c : FileRun),
    s.phase = .busy c → .reset ∉ s.inputs → (∀ a, .answer a ∉ s.inputs) → run n s = .next t →
    t.phase = .busy c ∧
    s.queue.map (fun q => q.words) <+: t.queue.map (fun q => q.words) ∧
    ∃ extra, t.trace = s.trace ++ extra ∧ ∀ e ∈ extra, ∃ r, e = .delivered r

/-- What the collaborator's answers for a file sum to, under each FILE_TAIL_POLICY: with whole records or under pad, the
Fold of the file's bytes; under drop, that of its whole records; under fail, a partial record ends in Error (41_fold_hash.md
section 1, 20_memory.md section 5). -/
def Obligations.FileAnswersFoldLikeBytes : Prop :=
  ∀ (policy : Config.TailPolicy) (bs : List Byte),
    (4 ∣ bs.length ∨ policy = .pad →
      ∃ ws : List Word, fileAnswersBy policy bs = ws.map .word ++ [.endOfStream] ∧ sumWords 0#32 ws = foldBytes bs) ∧
    (policy = .drop →
      ∃ ws : List Word, fileAnswersBy policy bs = ws.map .word ++ [.endOfStream] ∧
        sumWords 0#32 ws = foldBytes (bs.take (bs.length / 4 * 4))) ∧
    (policy = .fail → ¬ 4 ∣ bs.length → ∃ ws : List Word, fileAnswersBy policy bs = ws.map .word ++ [.error])

/-- A file of whole records hashes to the same response as the same bytes in memory: HASH_FILE, run to its end on
the collaborator's answers, against HASH_BUF (41_fold_hash.md sections 1 to 3). -/
def Obligations.FileHashEqualsBufferHash : Prop :=
  ∀ (s : State) (host : Nat) (h addr len : Word) (bs : List Byte) (q : List Queued),
    s.cfgValid = true → s.phase = .idle → 4 ∣ bs.length → bs.length = len.toNat →
    addr.toNat + len.toNat ≤ 2 ^ 32 → holdsBytes s addr bs →
    s.queue = ⟨host, encode (.hashFile h), []⟩ :: q →
    s.inputs = .engine :: (fileAnswers (some bs)).map .answer →
    ∃ t u, run ((fileAnswers (some bs)).length + 1) s = .next t ∧
      exec (.hashBuf addr len) { s with current := ⟨host, []⟩ } = .next u ∧
      t.responses = u.responses ∧ t.phase = .idle

/-! ## Frames and whole-machine rules -/

/-- What every command leaves alone when exec answers a next state: every byte of memory, the queue, what is arriving and
what is to come; A, B, CFG_VALID but for CONFIG; the count of free bytes (log entry 5) but for HASH_BUF and HASH_KEYED. Every command but
HASH_FILE ends, IDLE, with exactly one response to its host, VALUE 0 unless OK; HASH_FILE answers nothing yet where
it opens its stream. -/
def Obligations.CommandFrames : Prop :=
  ∀ (i : Instr) (s t : State), exec i s = .next t →
    (∀ a, Memory.read t.memory a = Memory.read s.memory a) ∧
    t.queue = s.queue ∧ t.inputs = s.inputs ∧ t.arriving = s.arriving ∧
    ((∀ a b, i ≠ .config a b) →
      t.paramA = s.paramA ∧ t.paramB = s.paramB ∧ t.cfgValid = s.cfgValid) ∧
    ((∀ addr len, i ≠ .hashBuf addr len) → (∀ k kl m ml, i ≠ .hashKeyed k kl m ml) →
      t.freeIndex = s.freeIndex) ∧
    ((t.phase = .idle ∧ t.current = ⟨0, []⟩ ∧ ∃ status value,
        t.responses = s.responses ++ [⟨s.current.host, status, value⟩] ∧ (status ≠ .ok → value = 0#32)) ∨
      ((∃ h, i = .hashFile h ∧ t.phase = .busy ⟨h, 0#32, 0⟩) ∧ t.current = s.current ∧
        t.responses = s.responses))

/-- No step but a host's own write changes the data memory (20_memory.md section 3). That the reset input leaves it as it
is is the model's inference, log entry 15. -/
def Obligations.EngineWritesNoMemory : Prop :=
  ∀ s t : State, step s = .next t → (∀ addr b rest, s.inputs ≠ .write addr b :: rest) →
    t.memory = s.memory

/-- Only HASH_BUF and HASH_KEYED read the data memory, and only inside their buffers; a command that ends NOT_CONFIGURED or
RANGE_ERROR reads nothing (20_memory.md sections 1 and 3). -/
def Obligations.ReadsStayInsideBuffers : Prop :=
  ∀ (i : Instr) (s t : State), exec i s = .next t →
    ∃ events, t.trace = s.trace ++ events ∧
      (∀ a, .memRead a ∈ events →
        (∃ addr len, i = .hashBuf addr len ∧ addr.toNat ≤ a ∧ a < addr.toNat + len.toNat) ∨
        (∃ k kl m ml, i = .hashKeyed k kl m ml ∧
          (k.toNat ≤ a ∧ a < k.toNat + kl.toNat ∨ m.toNat ≤ a ∧ a < m.toNat + ml.toNat))) ∧
      (∀ status, (status = .notConfigured ∨ status = .rangeError) →
        .response ⟨s.current.host, status, 0#32⟩ ∈ events → ∀ a, .memRead a ∉ events)

/-- Before CONFIG every command but CONFIG and GET_DLEN answers NOT_CONFIGURED and does nothing else (60_exceptions.md
section 1, 70_reset_and_hazards.md section 2). -/
def Obligations.UnconfiguredCommandsAnswerSo : Prop :=
  ∀ (i : Instr) (s : State), s.cfgValid = false → (∀ a b, i ≠ .config a b) → i ≠ .getDlen →
    exec i s = .next (afterResponse s .notConfigured 0#32 [])

/-- The effect of raise: one response (status, 0), no register written, ACC and any open stream gone, no further
port event (60_exceptions.md section 1). -/
def Obligations.RaiseEndsTheCommand : Prop :=
  ∀ (status : Status) (s : State), raiseStatus status s = afterResponse s status 0#32 []

/-- R54 and R78 as words: STATUS in word 0, the rest of it zero, VALUE in word 1, and the seven codes; never a reserved
one. -/
def Obligations.ResponseWordsCarryStatus : Prop :=
  (∀ r : Response, ∃ w, responseWords r = [w, r.value] ∧ w.toNat = (statusCode r.status).toNat ∧ w.toNat ≤ 6) ∧
  [Status.ok, .ioError, .illegalCommand, .notConfigured, .alreadyConfigured, .rangeError, .busError].map
      (fun st => (statusCode st).toNat) = [0, 1, 2, 3, 4, 5, 6]

/-- A queue of whole packets, legal or not, in which every HASH_FILE comes before any instance is configured, is answered
packet by packet: one step and exactly one response each, to the packets' hosts in the order of the queue. Each response is
the one exec gives for the packet's command, or (ILLEGAL_COMMAND, 0), in a state with the same memory and with the
coefficients that the packets before it leave (30_encoding.md section 3, 10_state.md section 3,
70_reset_and_hazards.md section 3). -/
def Obligations.EveryPacketAnsweredInOrder : Prop :=
  ∀ s : State, s.phase = .idle → s.inputs = [] → (∀ q ∈ s.queue, framed q.words = true) →
    (∀ before q after h tail, s.queue = before ++ q :: after → decode q.words = .ok (.hashFile h, tail) →
      (coefficientsAfter s before).1 = false) →
    (∃ t new, run s.queue.length s = .next t ∧ t.queue = [] ∧ t.phase = .idle ∧
      t.responses = s.responses ++ new ∧ new.map (fun r => r.host) = s.queue.map (fun q => q.host)) ∧
    (∀ before q after, s.queue = before ++ q :: after →
      ∃ u v r, run before.length s = .next u ∧ step u = .next v ∧
        u.queue = q :: after ∧ u.phase = .idle ∧ u.memory = s.memory ∧
        (u.cfgValid, u.paramA, u.paramB) = coefficientsAfter s before ∧
        v.responses = u.responses ++ [r] ∧ r.host = q.host ∧
        (∀ i tail, decode q.words = .ok (i, tail) → exec i (started u q after) = .next v) ∧
        (∀ e, decode q.words = .error e → r = ⟨q.host, .illegalCommand, 0#32⟩))

/-- A command's outcome depends on A, B, CFG_VALID, its operands, the memory and the races (log entry 5) alone: two states
that agree on those give the same new responses, the same port events, the same registers and the same phase, whatever else
was queued, answered or traced before. The same of each answer a HASH_FILE takes: it depends on A, B, whose command it is and
what the file has given so far (10_state.md section 3, 60_exceptions.md section 5). -/
def Obligations.OutcomeDependsOnlyOnItsInputs : Prop :=
  (∀ (i : Instr) (s₁ s₂ t₁ t₂ : State),
    s₁.paramA = s₂.paramA → s₁.paramB = s₂.paramB → s₁.cfgValid = s₂.cfgValid →
    s₁.memory = s₂.memory → s₁.current = s₂.current → s₁.freeIndex = s₂.freeIndex →
    exec i s₁ = .next t₁ → exec i s₂ = .next t₂ →
    ∃ new events,
      t₁.responses = s₁.responses ++ new ∧ t₂.responses = s₂.responses ++ new ∧
      t₁.trace = s₁.trace ++ events ∧ t₂.trace = s₂.trace ++ events ∧
      t₁.paramA = t₂.paramA ∧ t₁.paramB = t₂.paramB ∧ t₁.cfgValid = t₂.cfgValid ∧ t₁.phase = t₂.phase) ∧
  (∀ (a : StreamAnswer) (c : FileRun) (rest₁ rest₂ : List Input) (s₁ s₂ : State),
    s₁.phase = .busy c → s₂.phase = .busy c → s₁.inputs = .answer a :: rest₁ → s₂.inputs = .answer a :: rest₂ →
    s₁.paramA = s₂.paramA → s₁.paramB = s₂.paramB → s₁.current = s₂.current →
    ∃ t₁ t₂ new events, step s₁ = .next t₁ ∧ step s₂ = .next t₂ ∧
      t₁.responses = s₁.responses ++ new ∧ t₂.responses = s₂.responses ++ new ∧
      t₁.trace = s₁.trace ++ events ∧ t₂.trace = s₂.trace ++ events ∧
      t₁.paramA = t₂.paramA ∧ t₁.paramB = t₂.paramB ∧ t₁.phase = t₂.phase ∧
      t₁.cfgValid = s₁.cfgValid ∧ t₂.cfgValid = s₂.cfgValid)

/-- A HASH_WORD sent right after a CONFIG uses the new coefficients (70_reset_and_hazards.md section 3). -/
def Obligations.ConfigSeenByNextCommand : Prop :=
  ∀ (s : State) (x y : Nat) (a b key : Word) (rx ry : List Nat),
    s.phase = .idle → s.cfgValid = false → s.inputs = [] →
    s.queue = [⟨x, encode (.config a b), rx⟩, ⟨y, encode (.hashWord key), ry⟩] →
    ∃ t, run 2 s = .next t ∧ t.queue = [] ∧ t.paramA = a ∧ t.paramB = b ∧ t.cfgValid = true ∧
      t.responses = s.responses ++ [⟨x, .ok, 0#32⟩, ⟨y, .ok, mar a b key⟩]

/-! ## Reset, memory and response ports -/

/-- The state after reset, for all the spec gives a value (10_state.md section 4). -/
def Obligations.ResetState : Prop :=
  State.reset.cfgValid = false ∧ State.reset.phase = .idle ∧ State.reset.queue = [] ∧
  State.reset.responses = []

/-- The reset input, at any time: CFG_VALID 0, IDLE, no stream, both queues empty, and no response for what was in progress
(70_reset_and_hazards.md section 1). The model's choices: the memory, the trace and the inputs to come stay (log entry 15);
the port is empty (log entry 6); A and B (log entry 1) and the running command's ticket (log entry 7) are as in the
reset state. -/
def Obligations.ResetAbandonsEverything : Prop :=
  ∀ (s : State) (rest : List Input), s.inputs = .reset :: rest →
    ∃ t, step s = .next t ∧ t.cfgValid = false ∧ t.phase = .idle ∧ t.queue = [] ∧ t.responses = [] ∧
      t.arriving.words = [] ∧ t.memory = s.memory ∧ t.inputs = rest ∧ t.trace = s.trace ∧
      t.paramA = State.reset.paramA ∧ t.paramB = State.reset.paramB ∧ t.current = State.reset.current

/-- A host write changes one byte and nothing of the block (20_memory.md sections 1 and 4). The model's choices: the byte then
reads as written even where no readable memory was (log entry 4), and it is marked as written for every command already sent,
or being sent, and not yet run (log entry 5). -/
def Obligations.HostWriteChangesOneByte : Prop :=
  ∀ (s : State) (addr : Word) (b : Byte) (rest : List Input), s.inputs = .write addr b :: rest →
    ∃ t, step s = .next t ∧ Memory.read t.memory addr.toNat = some b ∧
      (∀ a, a ≠ addr.toNat → Memory.read t.memory a = Memory.read s.memory a) ∧
      t.queue = s.queue.map (fun q => ⟨q.host, q.words, addr.toNat :: q.raced⟩) ∧
      (s.arriving.words ≠ [] →
        t.arriving = ⟨s.arriving.host, s.arriving.words, addr.toNat :: s.arriving.raced⟩) ∧
      (s.arriving.words = [] → t.arriving = s.arriving) ∧
      t.paramA = s.paramA ∧ t.paramB = s.paramB ∧ t.cfgValid = s.cfgValid ∧ t.phase = s.phase ∧
      t.responses = s.responses ∧ t.trace = s.trace

/-- A byte that no host wrote since the command was sent reads the same each time, whatever other bytes are read between,
raced or not, and no read changes the memory (20_memory.md section 3, side effects; log entries 5 and 18). -/
def Obligations.ReadsAreRepeatable : Prop :=
  ∀ (a : Nat) (others : List Nat) (s : State), a ∉ s.current.raced →
    (memRead a (others.foldl (fun u b => (memRead b u).2) (memRead a s).2)).1 = (memRead a s).1 ∧
    (others.foldl (fun u b => (memRead b u).2) s).memory = s.memory

/-- A host that takes a response gets the oldest of its own, and all others keep their order; with none for it, nothing
happens (10_state.md section 3). That it may do so before another host has taken an older response is the model's choice,
log entry 20. -/
def Obligations.HostTakesItsOldestResponse : Prop :=
  ∀ (s : State) (host : Nat) (rest : List Input), s.inputs = .take host :: rest →
    (∀ before r after, s.responses = before ++ r :: after → r.host = host →
      (∀ x ∈ before, x.host ≠ host) →
      step s = .next
        { s with responses := before ++ after, trace := s.trace ++ [.delivered r], inputs := rest }) ∧
    ((∀ r ∈ s.responses, r.host ≠ host) → step s = .next { s with inputs := rest })
end

