-- ==== Sys2Proof/Laws/Arith.lean ====
section
/-! SUPPORT. The range of M, and MAR below it. -/

namespace Sys2Proof.Machine

theorem Config.modulus_gt : 2 ^ 30 < Config.modulus := by
  unfold Config.modulus; omega

theorem Config.modulus_lt : Config.modulus < 2 ^ 32 := by
  have := Config.modulusOffset.isLt
  unfold Config.modulus; omega

/-- Where t is below 2^30, MAR is t, for every allowed M: the rule test vectors rest on. -/
theorem mar_of_affine_small {a b x : Word} (h : (affine a b x).toNat < 2 ^ 30) :
    mar a b x = affine a b x := by
  have hM := Config.modulus_gt
  unfold mar marBy
  rw [Nat.mod_eq_of_lt (by omega)]
  simp

@[simp] theorem chunkWords_nil : chunkWords [] = [] := rfl
@[simp] theorem foldBytes_nil : foldBytes [] = 0#32 := rfl
@[simp] theorem sumWords_nil (acc : Word) : sumWords acc [] = acc := rfl
@[simp] theorem sumWords_cons (acc w : Word) (ws : List Word) :
    sumWords acc (w :: ws) = sumWords (acc + w) ws := rfl

end Sys2Proof.Machine
end

