-- ==== Sys2Proof/Laws/Decode.lean ====
section
/-! SUPPORT. The fields of a header word built by the encoder. -/

namespace Sys2Proof

theorem headerWord_getLsbD (opc : BitVec 8) (n : BitVec 4) (i : Nat) :
    (headerWord opc n).getLsbD i = if i < 8 then opc.getLsbD i else n.getLsbD (i - 8) := by
  show ((0#20 ++ n ++ opc : BitVec (20 + 4 + 8))).getLsbD i = _
  rw [BitVec.getLsbD_append, BitVec.getLsbD_append]
  by_cases h8 : i < 8
  · simp [h8]
  · by_cases h12 : i - 8 < 4
    · simp [h8, h12]
    · simp [h8, h12, BitVec.getLsbD_of_ge n (i - 8) (by omega)]

@[simp] theorem headerOpc_headerWord (opc : BitVec 8) (n : BitVec 4) :
    headerOpc (headerWord opc n) = opc := by
  apply BitVec.eq_of_getLsbD_eq
  intro i hi
  simp only [headerOpc, BitVec.getLsbD_extractLsb', headerWord_getLsbD]
  simp [hi]

@[simp] theorem headerNops_headerWord (opc : BitVec 8) (n : BitVec 4) :
    headerNops (headerWord opc n) = n := by
  apply BitVec.eq_of_getLsbD_eq
  intro i hi
  simp only [headerNops, BitVec.getLsbD_extractLsb', headerWord_getLsbD]
  simp [hi]

@[simp] theorem headerRsvd_headerWord (opc : BitVec 8) (n : BitVec 4) :
    headerRsvd (headerWord opc n) = 0#20 := by
  apply BitVec.eq_of_getLsbD_eq
  intro i hi
  simp only [headerRsvd, BitVec.getLsbD_extractLsb', headerWord_getLsbD]
  simp [show ¬ 12 + i < 8 by omega, BitVec.getLsbD_of_ge n (12 + i - 8) (by omega)]

/-- A header with RSVD = 0 is the header word of its own two fields. -/
theorem header_of_fields (h : Word) (hr : headerRsvd h = 0#20) :
    h = headerWord (headerOpc h) (headerNops h) := by
  apply BitVec.eq_of_getLsbD_eq
  intro i hi
  rw [headerWord_getLsbD]
  by_cases h8 : i < 8
  · simp [headerOpc, h8]
  · by_cases h12 : i - 8 < 4
    · simp [headerNops, h8, h12, show 8 + (i - 8) = i by omega]
    · have hb : (headerRsvd h).getLsbD (i - 12) = false := by rw [hr]; simp
      simp only [headerRsvd, BitVec.getLsbD_extractLsb', show 12 + (i - 12) = i by omega,
        show i - 12 < 20 by omega, decide_true, Bool.true_and] at hb
      simp [h8, hb, BitVec.getLsbD_of_ge (headerNops h) (i - 8) (by omega)]

end Sys2Proof
end

