-- ==== Sys2Proof/Laws/State.lean ====
section
/-! SUPPORT. One lemma per field per update: each operation's effect on each field of State. -/

namespace Sys2Proof.Machine

variable (s : State)

@[simp] theorem logEvent_paramA (e : PortEvent) : (logEvent e s).paramA = s.paramA := rfl
@[simp] theorem logEvent_paramB (e : PortEvent) : (logEvent e s).paramB = s.paramB := rfl
@[simp] theorem logEvent_cfgValid (e : PortEvent) : (logEvent e s).cfgValid = s.cfgValid := rfl
@[simp] theorem logEvent_phase (e : PortEvent) : (logEvent e s).phase = s.phase := rfl
@[simp] theorem logEvent_queue (e : PortEvent) : (logEvent e s).queue = s.queue := rfl
@[simp] theorem logEvent_responses (e : PortEvent) : (logEvent e s).responses = s.responses := rfl
@[simp] theorem logEvent_arriving (e : PortEvent) : (logEvent e s).arriving = s.arriving := rfl
@[simp] theorem logEvent_memory (e : PortEvent) : (logEvent e s).memory = s.memory := rfl
@[simp] theorem logEvent_current (e : PortEvent) : (logEvent e s).current = s.current := rfl
@[simp] theorem logEvent_freeIndex (e : PortEvent) : (logEvent e s).freeIndex = s.freeIndex := rfl
@[simp] theorem logEvent_inputs (e : PortEvent) : (logEvent e s).inputs = s.inputs := rfl
@[simp] theorem logEvent_trace (e : PortEvent) : (logEvent e s).trace = s.trace ++ [e] := rfl

@[simp] theorem streamNext_paramA : (streamNext s).paramA = s.paramA := rfl
@[simp] theorem streamNext_paramB : (streamNext s).paramB = s.paramB := rfl
@[simp] theorem streamNext_cfgValid : (streamNext s).cfgValid = s.cfgValid := rfl
@[simp] theorem streamNext_phase : (streamNext s).phase = s.phase := rfl
@[simp] theorem streamNext_queue : (streamNext s).queue = s.queue := rfl
@[simp] theorem streamNext_responses : (streamNext s).responses = s.responses := rfl
@[simp] theorem streamNext_arriving : (streamNext s).arriving = s.arriving := rfl
@[simp] theorem streamNext_memory : (streamNext s).memory = s.memory := rfl
@[simp] theorem streamNext_current : (streamNext s).current = s.current := rfl
@[simp] theorem streamNext_freeIndex : (streamNext s).freeIndex = s.freeIndex := rfl
@[simp] theorem streamNext_inputs : (streamNext s).inputs = s.inputs := rfl
@[simp] theorem streamNext_trace : (streamNext s).trace = s.trace ++ [.streamNext] := rfl

@[simp] theorem streamOpen_paramA (h : Word) : (streamOpen h s).paramA = s.paramA := rfl
@[simp] theorem streamOpen_paramB (h : Word) : (streamOpen h s).paramB = s.paramB := rfl
@[simp] theorem streamOpen_cfgValid (h : Word) : (streamOpen h s).cfgValid = s.cfgValid := rfl
@[simp] theorem streamOpen_phase (h : Word) : (streamOpen h s).phase = .busy ⟨h, 0#32, 0⟩ := rfl
@[simp] theorem streamOpen_queue (h : Word) : (streamOpen h s).queue = s.queue := rfl
@[simp] theorem streamOpen_responses (h : Word) : (streamOpen h s).responses = s.responses := rfl
@[simp] theorem streamOpen_arriving (h : Word) : (streamOpen h s).arriving = s.arriving := rfl
@[simp] theorem streamOpen_memory (h : Word) : (streamOpen h s).memory = s.memory := rfl
@[simp] theorem streamOpen_current (h : Word) : (streamOpen h s).current = s.current := rfl
@[simp] theorem streamOpen_freeIndex (h : Word) : (streamOpen h s).freeIndex = s.freeIndex := rfl
@[simp] theorem streamOpen_inputs (h : Word) : (streamOpen h s).inputs = s.inputs := rfl
@[simp] theorem streamOpen_trace (h : Word) : (streamOpen h s).trace = s.trace ++ [.streamOpen h] := rfl

@[simp] theorem respond_paramA (st : Status) (v : Word) : (respond st v s).paramA = s.paramA := rfl
@[simp] theorem respond_paramB (st : Status) (v : Word) : (respond st v s).paramB = s.paramB := rfl
@[simp] theorem respond_cfgValid (st : Status) (v : Word) : (respond st v s).cfgValid = s.cfgValid := rfl
@[simp] theorem respond_phase (st : Status) (v : Word) : (respond st v s).phase = .idle := rfl
@[simp] theorem respond_queue (st : Status) (v : Word) : (respond st v s).queue = s.queue := rfl
@[simp] theorem respond_responses (st : Status) (v : Word) : (respond st v s).responses = s.responses ++ [⟨s.current.host, st, v⟩] := rfl
@[simp] theorem respond_arriving (st : Status) (v : Word) : (respond st v s).arriving = s.arriving := rfl
@[simp] theorem respond_memory (st : Status) (v : Word) : (respond st v s).memory = s.memory := rfl
@[simp] theorem respond_current (st : Status) (v : Word) : (respond st v s).current = ⟨0, []⟩ := rfl
@[simp] theorem respond_freeIndex (st : Status) (v : Word) : (respond st v s).freeIndex = s.freeIndex := rfl
@[simp] theorem respond_inputs (st : Status) (v : Word) : (respond st v s).inputs = s.inputs := rfl
@[simp] theorem respond_trace (st : Status) (v : Word) : (respond st v s).trace = s.trace ++ [.response ⟨s.current.host, st, v⟩] := rfl

@[simp] theorem raiseStatus_paramA (st : Status) : (raiseStatus st s).paramA = s.paramA := rfl
@[simp] theorem raiseStatus_paramB (st : Status) : (raiseStatus st s).paramB = s.paramB := rfl
@[simp] theorem raiseStatus_cfgValid (st : Status) : (raiseStatus st s).cfgValid = s.cfgValid := rfl
@[simp] theorem raiseStatus_phase (st : Status) : (raiseStatus st s).phase = .idle := rfl
@[simp] theorem raiseStatus_queue (st : Status) : (raiseStatus st s).queue = s.queue := rfl
@[simp] theorem raiseStatus_responses (st : Status) : (raiseStatus st s).responses = s.responses ++ [⟨s.current.host, st, 0#32⟩] := rfl
@[simp] theorem raiseStatus_arriving (st : Status) : (raiseStatus st s).arriving = s.arriving := rfl
@[simp] theorem raiseStatus_memory (st : Status) : (raiseStatus st s).memory = s.memory := rfl
@[simp] theorem raiseStatus_current (st : Status) : (raiseStatus st s).current = ⟨0, []⟩ := rfl
@[simp] theorem raiseStatus_freeIndex (st : Status) : (raiseStatus st s).freeIndex = s.freeIndex := rfl
@[simp] theorem raiseStatus_inputs (st : Status) : (raiseStatus st s).inputs = s.inputs := rfl
@[simp] theorem raiseStatus_trace (st : Status) : (raiseStatus st s).trace = s.trace ++ [.response ⟨s.current.host, st, 0#32⟩] := rfl

@[simp] theorem respondHash_paramA (x : Word) : (respondHash x s).paramA = s.paramA := rfl
@[simp] theorem respondHash_paramB (x : Word) : (respondHash x s).paramB = s.paramB := rfl
@[simp] theorem respondHash_cfgValid (x : Word) : (respondHash x s).cfgValid = s.cfgValid := rfl
@[simp] theorem respondHash_phase (x : Word) : (respondHash x s).phase = .idle := rfl
@[simp] theorem respondHash_queue (x : Word) : (respondHash x s).queue = s.queue := rfl
@[simp] theorem respondHash_responses (x : Word) : (respondHash x s).responses = s.responses ++ [⟨s.current.host, .ok, mar s.paramA s.paramB x⟩] := rfl
@[simp] theorem respondHash_arriving (x : Word) : (respondHash x s).arriving = s.arriving := rfl
@[simp] theorem respondHash_memory (x : Word) : (respondHash x s).memory = s.memory := rfl
@[simp] theorem respondHash_current (x : Word) : (respondHash x s).current = ⟨0, []⟩ := rfl
@[simp] theorem respondHash_freeIndex (x : Word) : (respondHash x s).freeIndex = s.freeIndex := rfl
@[simp] theorem respondHash_inputs (x : Word) : (respondHash x s).inputs = s.inputs := rfl
@[simp] theorem respondHash_trace (x : Word) : (respondHash x s).trace = s.trace ++ [.response ⟨s.current.host, .ok, mar s.paramA s.paramB x⟩] := rfl

@[simp] theorem startPacket_paramA (q : Queued) (rest : List Queued) : (startPacket q rest s).paramA = s.paramA := rfl
@[simp] theorem startPacket_paramB (q : Queued) (rest : List Queued) : (startPacket q rest s).paramB = s.paramB := rfl
@[simp] theorem startPacket_cfgValid (q : Queued) (rest : List Queued) : (startPacket q rest s).cfgValid = s.cfgValid := rfl
@[simp] theorem startPacket_phase (q : Queued) (rest : List Queued) : (startPacket q rest s).phase = s.phase := rfl
@[simp] theorem startPacket_queue (q : Queued) (rest : List Queued) : (startPacket q rest s).queue = rest := rfl
@[simp] theorem startPacket_responses (q : Queued) (rest : List Queued) : (startPacket q rest s).responses = s.responses := rfl
@[simp] theorem startPacket_arriving (q : Queued) (rest : List Queued) : (startPacket q rest s).arriving = s.arriving := rfl
@[simp] theorem startPacket_memory (q : Queued) (rest : List Queued) : (startPacket q rest s).memory = s.memory := rfl
@[simp] theorem startPacket_current (q : Queued) (rest : List Queued) : (startPacket q rest s).current = ⟨q.host, q.raced⟩ := rfl
@[simp] theorem startPacket_freeIndex (q : Queued) (rest : List Queued) : (startPacket q rest s).freeIndex = s.freeIndex := rfl
@[simp] theorem startPacket_inputs (q : Queued) (rest : List Queued) : (startPacket q rest s).inputs = s.inputs := rfl
@[simp] theorem startPacket_trace (q : Queued) (rest : List Queued) : (startPacket q rest s).trace = s.trace := rfl

@[simp] theorem hostWrite_paramA (a : Word) (b : Byte) : (hostWrite a b s).paramA = s.paramA := rfl
@[simp] theorem hostWrite_paramB (a : Word) (b : Byte) : (hostWrite a b s).paramB = s.paramB := rfl
@[simp] theorem hostWrite_cfgValid (a : Word) (b : Byte) : (hostWrite a b s).cfgValid = s.cfgValid := rfl
@[simp] theorem hostWrite_phase (a : Word) (b : Byte) : (hostWrite a b s).phase = s.phase := rfl
@[simp] theorem hostWrite_queue (a : Word) (b : Byte) : (hostWrite a b s).queue = s.queue.map (Queued.race a.toNat) := rfl
@[simp] theorem hostWrite_responses (a : Word) (b : Byte) : (hostWrite a b s).responses = s.responses := rfl
@[simp] theorem hostWrite_arriving (a : Word) (b : Byte) : (hostWrite a b s).arriving = s.arriving.race a.toNat := rfl
@[simp] theorem hostWrite_memory (a : Word) (b : Byte) : (hostWrite a b s).memory = Memory.write s.memory a.toNat b := rfl
@[simp] theorem hostWrite_current (a : Word) (b : Byte) : (hostWrite a b s).current = s.current := rfl
@[simp] theorem hostWrite_freeIndex (a : Word) (b : Byte) : (hostWrite a b s).freeIndex = s.freeIndex := rfl
@[simp] theorem hostWrite_inputs (a : Word) (b : Byte) : (hostWrite a b s).inputs = s.inputs := rfl
@[simp] theorem hostWrite_trace (a : Word) (b : Byte) : (hostWrite a b s).trace = s.trace := rfl

@[simp] theorem resetInput_paramA : (resetInput s).paramA = State.reset.paramA := rfl
@[simp] theorem resetInput_paramB : (resetInput s).paramB = State.reset.paramB := rfl
@[simp] theorem resetInput_cfgValid : (resetInput s).cfgValid = false := rfl
@[simp] theorem resetInput_phase : (resetInput s).phase = .idle := rfl
@[simp] theorem resetInput_queue : (resetInput s).queue = [] := rfl
@[simp] theorem resetInput_responses : (resetInput s).responses = [] := rfl
@[simp] theorem resetInput_arriving : (resetInput s).arriving = ⟨0, [], []⟩ := rfl
@[simp] theorem resetInput_memory : (resetInput s).memory = s.memory := rfl
@[simp] theorem resetInput_current : (resetInput s).current = ⟨0, []⟩ := rfl
@[simp] theorem resetInput_freeIndex : (resetInput s).freeIndex = s.freeIndex := rfl
@[simp] theorem resetInput_inputs : (resetInput s).inputs = s.inputs := rfl
@[simp] theorem resetInput_trace : (resetInput s).trace = s.trace := rfl

end Sys2Proof.Machine
end

