-- ==== Sys2Proof/Laws/Ops.lean ====
section
/-! SUPPORT. What each shared operation can do, said once. -/

namespace Sys2Proof.Machine

/-- Reading changes nothing but the port trace and the count of free bytes. -/
structure OnlyRead (s t : State) : Prop where
  rest : t = { s with trace := t.trace, freeIndex := t.freeIndex }

theorem OnlyRead.refl (s : State) : OnlyRead s s := ⟨rfl⟩

theorem OnlyRead.trans {s t u : State} (h₁ : OnlyRead s t) (h₂ : OnlyRead t u) : OnlyRead s u :=
  ⟨by rw [h₂.rest, h₁.rest]⟩

/-- All that a single read can give: BusError, the byte in memory, or a free byte where it was raced. -/
theorem memRead_cases (a : Nat) (s : State) :
    (Memory.read s.memory a = none ∧ memRead a s = (.busError, logEvent (.memRead a) s)) ∨
    (∃ b, Memory.read s.memory a = some b ∧ a ∉ s.current.raced ∧
      memRead a s = (.value b, logEvent (.memRead a) s)) ∨
    (∃ b, Memory.read s.memory a = some b ∧ a ∈ s.current.raced ∧
      memRead a s = (.value (Config.racedByte s.freeIndex),
        logEvent (.memRead a) { s with freeIndex := s.freeIndex + 1 })) := by
  unfold memRead
  cases h : Memory.read s.memory a with
  | none => exact .inl ⟨rfl, rfl⟩
  | some b =>
    by_cases hr : a ∈ s.current.raced
    · exact .inr (.inr ⟨b, rfl, hr, by simp [hr]⟩)
    · exact .inr (.inl ⟨b, rfl, hr, by simp [hr]⟩)

theorem memRead_onlyRead (a : Nat) (s : State) : OnlyRead s (memRead a s).2 := by
  rcases memRead_cases a s with ⟨-, h⟩ | ⟨b, -, -, h⟩ | ⟨b, -, -, h⟩ <;> exact ⟨by rw [h]; rfl⟩

theorem readBytes_onlyRead (n a : Nat) (s : State) : OnlyRead s (readBytes n a s).2 := by
  induction n generalizing a s with
  | zero => exact .refl s
  | succ n ih =>
    have h₁ := memRead_onlyRead a s
    simp only [readBytes]
    rcases hm : memRead a s with ⟨r, s₁⟩
    rw [hm] at h₁
    cases r with
    | busError => exact h₁
    | value b =>
      have h₂ := ih (a + 1) s₁
      rcases hr : readBytes n (a + 1) s₁ with ⟨r, s₂⟩
      rw [hr] at h₂
      dsimp only at h₁ h₂ ⊢
      rw [hr]
      cases r <;> exact h₁.trans h₂

theorem fold_onlyRead (addr len : Word) (s : State) : OnlyRead s (fold addr len s).2 := by
  have h := readBytes_onlyRead len.toNat addr.toNat s
  unfold fold
  rcases hr : readBytes len.toNat addr.toNat s with ⟨r, s₁⟩
  rw [hr] at h
  cases r <;> exact h

/-- A check answers NOT_CONFIGURED or goes on. -/
theorem whenConfigured_cases (k : State → State) (s : State) :
    (s.cfgValid = false ∧ whenConfigured k s = raiseStatus .notConfigured s) ∨
    (s.cfgValid = true ∧ whenConfigured k s = k s) := by
  unfold whenConfigured
  cases h : s.cfgValid <;> simp

/-- A range check answers RANGE_ERROR or goes on. -/
theorem whenInRange_cases (addr len : Word) (k : State → State) (s : State) :
    (inRange addr len = false ∧ whenInRange addr len k s = raiseStatus .rangeError s) ∨
    (inRange addr len = true ∧ whenInRange addr len k s = k s) := by
  unfold whenInRange
  cases h : inRange addr len <;> simp

/-- Folding answers BUS_ERROR or goes on with an accumulator, in a state that only has read. -/
theorem withFold_cases (addr len : Word) (k : Word → State → State) (s : State) :
    (∃ s₁, OnlyRead s s₁ ∧ fold addr len s = (.busError, s₁) ∧
      withFold addr len k s = raiseStatus .busError s₁) ∨
    (∃ acc s₁, OnlyRead s s₁ ∧ fold addr len s = (.value acc, s₁) ∧
      withFold addr len k s = k acc s₁) := by
  have h := fold_onlyRead addr len s
  unfold withFold
  rcases hf : fold addr len s with ⟨r, s₁⟩
  rw [hf] at h
  cases r with
  | busError => exact .inl ⟨s₁, h, rfl, rfl⟩
  | value acc => exact .inr ⟨acc, s₁, h, rfl, rfl⟩

/-- Taking an answer keeps on reading the file, or ends the command with one response. -/
theorem takeAnswer_cases (c : FileRun) (a : StreamAnswer) (s : State) :
    (∃ w, a = .word w ∧ takeAnswer c a s =
      streamNext { s with phase := .busy ⟨c.handle, c.acc + w, c.taken + 1⟩ }) ∨
    (a = .endOfStream ∧ takeAnswer c a s = respondHash c.acc s) ∨
    (a = .error ∧ takeAnswer c a s = raiseStatus .ioError s) := by
  cases a with
  | word w => exact .inl ⟨w, rfl, rfl⟩
  | endOfStream => exact .inr (.inl ⟨rfl, rfl⟩)
  | error => exact .inr (.inr ⟨rfl, rfl⟩)

/-- A word on the command port is not transferred, completes a packet, or is kept with those before it. -/
theorem acceptWord_cases (host : Nat) (w : Word) (s : State) :
    (s.arriving.words ≠ [] ∧ s.arriving.host ≠ host ∧ acceptWord host w s = s) ∨
    ((s.arriving.words = [] ∨ s.arriving.host = host) ∧ framed (s.arriving.words ++ [w]) = true ∧
      acceptWord host w s =
        { s with arriving := ⟨0, [], []⟩,
                 queue := s.queue ++ [⟨host, s.arriving.words ++ [w], s.arriving.raced⟩] }) ∨
    ((s.arriving.words = [] ∨ s.arriving.host = host) ∧ framed (s.arriving.words ++ [w]) = false ∧
      acceptWord host w s = { s with arriving := ⟨host, s.arriving.words ++ [w], s.arriving.raced⟩ }) := by
  unfold acceptWord
  by_cases h : s.arriving.words ≠ [] ∧ s.arriving.host ≠ host
  · exact .inl ⟨h.1, h.2, if_pos h⟩
  · rw [if_neg h]
    have h' : s.arriving.words = [] ∨ s.arriving.host = host := by tauto
    cases hf : framed (s.arriving.words ++ [w])
    · exact .inr (.inr ⟨h', rfl, by simp⟩)
    · exact .inr (.inl ⟨h', rfl, by simp⟩)

/-- A host takes its oldest response, or there is none for it. -/
theorem takeResponse_cases (host : Nat) (s : State) :
    ((∀ r ∈ s.responses, r.host ≠ host) ∧ takeResponse host s = s) ∨
    (∃ before r after, s.responses = before ++ r :: after ∧ r.host = host ∧
      (∀ x ∈ before, x.host ≠ host) ∧
      takeResponse host s =
        { s with responses := before ++ after, trace := s.trace ++ [.delivered r] }) := by
  unfold takeResponse
  cases hf : s.responses.find? (fun r => r.host == host) with
  | none =>
    refine .inl ⟨fun r hr h => ?_, rfl⟩
    have := List.find?_eq_none.mp hf r hr
    simp [h] at this
  | some r =>
    obtain ⟨hr, before, after, hs, hb⟩ := List.find?_eq_some_iff_append.mp hf
    refine .inr ⟨before, r, after, hs, by simpa using hr, fun x hx => by simpa using hb x hx, ?_⟩
    have : s.responses.eraseP (fun r => r.host == host) = before ++ after := by
      rw [hs, List.eraseP_append_right _ (by simpa using hb)]
      simp [hr]
    simp [this]

/-- One step, by what acts. -/
theorem step_cases (s : State) :
    (s.inputs = [] ∧ step s = engineTurn s) ∨
    (∃ rest, s.inputs = .engine :: rest ∧ step s = engineTurn { s with inputs := rest }) ∨
    (∃ host w rest, s.inputs = .word host w :: rest ∧
      step s = .next (acceptWord host w { s with inputs := rest })) ∨
    (∃ addr b rest, s.inputs = .write addr b :: rest ∧
      step s = .next (hostWrite addr b { s with inputs := rest })) ∨
    (∃ host rest, s.inputs = .take host :: rest ∧
      step s = .next (takeResponse host { s with inputs := rest })) ∨
    (∃ a rest, s.inputs = .answer a :: rest ∧
      step s = .next (collaboratorAnswer a { s with inputs := rest })) ∨
    (∃ rest, s.inputs = .reset :: rest ∧ step s = .next (resetInput { s with inputs := rest })) := by
  unfold step
  rcases hi : s.inputs with _ | ⟨i, rest⟩
  · simp
  · cases i <;> simp

/-- One turn of the engine, by its phase and its queue. -/
theorem engineTurn_cases (s : State) :
    ((s.phase ≠ .idle ∨ s.queue = []) ∧ engineTurn s = .next s) ∨
    (∃ q rest, s.phase = .idle ∧ s.queue = q :: rest ∧ framed q.words = false ∧
      engineTurn s = .fault .unframedPacket) ∨
    (∃ q rest e, s.phase = .idle ∧ s.queue = q :: rest ∧ framed q.words = true ∧
      decode q.words = .error e ∧
      engineTurn s = .next (raiseStatus .illegalCommand (startPacket q rest s))) ∨
    (∃ q rest i tail, s.phase = .idle ∧ s.queue = q :: rest ∧ framed q.words = true ∧
      decode q.words = .ok (i, tail) ∧ engineTurn s = exec i (startPacket q rest s)) := by
  unfold engineTurn
  cases hp : s.phase with
  | busy c => simp
  | idle =>
    rcases hq : s.queue with _ | ⟨q, rest⟩
    · simp
    · cases hf : framed q.words with
      | false => simp [hf]
      | true =>
        rcases hd : decode q.words with e | ⟨i, tail⟩
        · exact .inr (.inr (.inl ⟨q, rest, e, rfl, rfl, hf, hd, by simp [hf, hd]⟩))
        · exact .inr (.inr (.inr ⟨q, rest, i, tail, rfl, rfl, hf, hd, by simp [hf, hd]⟩))

end Sys2Proof.Machine
end

