-- ==== Sys2Proof/Laws/PerInstr.lean ====
section
/-! SUPPORT. Statements about every command as syntax, one lemma per constructor. -/

/-- The encoder writes one whole packet of at most five words, and the command is well formed. -/
def Sys2Proof.Laws.EncodedFramed.Statement (i : Sys2Proof.Instr) : Prop :=
  Sys2Proof.framed (Sys2Proof.encode i) = true ∧ (Sys2Proof.encode i).length ≤ 5 ∧ i.wf = true

namespace Sys2Proof.Laws.EncodedFramed

theorem config (a b : Word) : Statement (.config a b) := ⟨rfl, by simp [encode], rfl⟩
theorem getA : Statement .getA := ⟨rfl, by simp [encode], rfl⟩
theorem getB : Statement .getB := ⟨rfl, by simp [encode], rfl⟩
theorem getDlen : Statement .getDlen := ⟨rfl, by simp [encode], rfl⟩
theorem hashWord (key : Word) : Statement (.hashWord key) := ⟨rfl, by simp [encode], rfl⟩
theorem hashWordAb (key a b : Word) : Statement (.hashWordAb key a b) := ⟨rfl, by simp [encode], rfl⟩
theorem hashBuf (addr len : Word) : Statement (.hashBuf addr len) := ⟨rfl, by simp [encode], rfl⟩
theorem hashFile (h : Word) : Statement (.hashFile h) := ⟨rfl, by simp [encode], rfl⟩
theorem hashKeyed (kaddr klen maddr mlen : Word) : Statement (.hashKeyed kaddr klen maddr mlen) :=
  ⟨rfl, by simp [encode], rfl⟩

end Sys2Proof.Laws.EncodedFramed
end

