-- ==== Sys2Proof/Laws/Run.lean ====
section
/-! SUPPORT. Runs of the machine, step by step. -/

namespace Sys2Proof.Machine

theorem core_run_next {M : Host.Core} {s t : M.State} (n : Nat) (h : M.step s = .next t) :
    M.run (n + 1) s = M.run n t := by
  simp [Host.Core.run, h]

theorem core_run_stops {M : Host.Core} {s t : M.State} {n : Nat} (h : M.run (n + 1) s = .next t) :
    ∃ u, M.step s = .next u ∧ M.run n u = .next t := by
  cases hs : M.step s with
  | next u => exact ⟨u, rfl, by rw [← h, core_run_next n hs]⟩
  | fault r => simp [Host.Core.run, hs] at h
  | refused r => simp [Host.Core.run, hs] at h

@[simp] theorem run_zero (s : State) : run 0 s = .next s := rfl

/-- A run goes on from the next state of its first step. -/
theorem run_next {s t : State} (n : Nat) (h : step s = .next t) : run (n + 1) s = run n t :=
  core_run_next (M := Sys2Proof.core) n h

/-- A run that reaches a state did not stop at its first step. -/
theorem run_succ_cases {s t : State} {n : Nat} (h : run (n + 1) s = .next t) :
    ∃ u, step s = .next u ∧ run n u = .next t :=
  core_run_stops (M := Sys2Proof.core) h

@[simp] theorem coefficientsAfter_nil (s : State) :
    coefficientsAfter s [] = (s.cfgValid, s.paramA, s.paramB) := rfl

/-- The coefficients after a list of packets, from those after its first packet. -/
theorem coefficientsAfter_cons {s u : State} {q : Queued}
    (h : (u.cfgValid, u.paramA, u.paramB) = coefficientsAfter s [q]) (ps : List Queued) :
    coefficientsAfter s (q :: ps) = coefficientsAfter u ps := by
  unfold coefficientsAfter at *
  rw [h]; rfl

end Sys2Proof.Machine
end

