-- ==== Sys2Proof/Tests/Slice0.lean ====
section
/-! SUPPORT. Small tests, their expected results taken from spec/95_test_vectors.md and the rules' examples, and one
witness for each statement with hypotheses. -/

namespace Sys2Proof.Machine.Tests

open Sys2Proof Sys2Proof.Machine

/-! ## States -/

/-- After CONFIG a, b. -/
def configured (a b : Word) : State := { State.reset with paramA := a, paramB := b, cfgValid := true }

/-- After CONFIG 3, 5, with bytes 01 00 00 00 FF at 0x1000 (program P2). -/
def withBuffer : State :=
  { configured 3 5 with memory := [(0x1000, 1), (0x1001, 0), (0x1002, 0), (0x1003, 0), (0x1004, 0xFF)] }

/-- After CONFIG 3, 5, with byte 07 at the top of memory (B10). -/
def withTopByte : State := { configured 3 5 with memory := [(0xFFFFFFFF, 7)] }

/-- After CONFIG 3, 5, reading the file of handle 7, nothing taken yet. -/
def readingFile : State := { configured 3 5 with phase := .busy ⟨7, 0, 0⟩ }

/-- After CONFIG 3, 5, with one packet of host 1 in the queue. -/
def withPacket (words : List Word) : State := { configured 3 5 with queue := [⟨1, words, []⟩] }

/-! ## Packets: every row of R51, written out -/

theorem test_decode_config : decode [0x00000201#32, 3, 5] = .ok (.config 3 5, []) := rfl
theorem test_decode_get_a : decode [0x00000002#32] = .ok (.getA, []) := rfl
theorem test_decode_get_b : decode [0x00000003#32] = .ok (.getB, []) := rfl
theorem test_decode_get_dlen : decode [0x00000004#32] = .ok (.getDlen, []) := rfl
theorem test_decode_hash_word : decode [0x00000110#32, 0xFFFFFFFF] = .ok (.hashWord 0xFFFFFFFF, []) := rfl
theorem test_decode_hash_word_ab :
    decode [0x00000311#32, 7, 3, 0xB] = .ok (.hashWordAb 7 3 11, []) := rfl
theorem test_decode_hash_buf : decode [0x00000220#32, 0x1000, 5] = .ok (.hashBuf 0x1000 5, []) := rfl
theorem test_decode_hash_file : decode [0x00000121#32, 7] = .ok (.hashFile 7, []) := rfl
theorem test_decode_hash_keyed :
    decode [0x00000422#32, 0x2000, 3, 0x2003, 1] = .ok (.hashKeyed 0x2000 3 0x2003 1, []) := rfl

theorem test_encode_hash_keyed :
    encode (.hashKeyed 0x2000 3 0x2003 1) = [0x00000422#32, 0x2000, 3, 0x2003, 1] := by decide
theorem test_table_word_hash_word_ab :
    decodeTableWord 32 0x00000311 = some (.hashWordAb 0 0 0) := by decide
theorem test_table_word_with_operands :
    decodeTableWord 96 0x00000005_00000003_00000201 = some (.config 3 5) := by decide

/-! ## Form checks: each refuses an ill-formed term (E1, E3, E4, E5, E8) -/

theorem test_framed_refuses_nothing : framed [] = false := rfl
theorem test_framed_refuses_short : framed [0x00000201#32, 3] = false := by decide
theorem test_framed_refuses_long : framed [0x00000002#32, 3] = false := by decide
theorem test_framed_accepts_illegal_whole : framed [0x00000210#32, 1, 2] = true := by decide
theorem test_legal_refuses_zero : legalHeader 0x00000000#32 = false := by decide
theorem test_legal_refuses_reserved : legalHeader 0x80000201#32 = false := by decide
theorem test_legal_refuses_opcode : legalHeader 0x00000005#32 = false := by decide
theorem test_legal_refuses_nops : legalHeader 0x00000210#32 = false := by decide
theorem test_wf_any_operands : (Instr.hashBuf 0xFFFFFFFF 0xFFFFFFFF).wf = true := rfl
theorem test_memory_wf_refuses_order : ¬ Memory.wf [(2, 0), (1, 0)] := by decide
theorem test_memory_wf_refuses_range : ¬ Memory.wf [(4294967296, 0)] := by decide

/-! ## Arithmetic (2.1, 2.3) -/

theorem test_affine_wraps_both : affine 0xFFFFFFFF 0xFFFFFFFF 0xFFFFFFFF = 0 := by decide
theorem test_mar_at_modulus : marBy 0x7FFFFFFF 1 0 0x7FFFFFFF = 0 := by decide
theorem test_mar_above_modulus : marBy 0x7FFFFFFF 0xFFFFFFFF 0 1 = 1 := by decide
theorem test_fold_partial_chunk : foldBytes [1, 0, 0, 0, 0xFF] = 0x100 := by decide
theorem test_fold_three_chunks : foldBytes [1, 2, 3, 4, 5, 6, 7, 8, 9] = 0x0C0A080F := by decide
theorem test_fold_wraps : foldBytes [0xFF, 0xFF, 0xFF, 0xFF, 1] = 0 := by decide
theorem test_digest_bytes : digest ⟨0, .ok, 0x369D036D⟩ = [0x6D, 0x03, 0x9D, 0x36] := by decide

/-! ## Commands -/

/-- C1. -/
theorem test_config_first :
    exec (.config 3 5) State.reset = .next (afterResponse (configured 3 5) .ok 0 []) := rfl
/-- C2. -/
theorem test_config_second :
    exec (.config 1 1) (configured 3 5) = .next (afterResponse (configured 3 5) .alreadyConfigured 0 []) := rfl
/-- C3. -/
theorem test_get_a : exec .getA (configured 3 5) = .next (afterResponse (configured 3 5) .ok 3 []) := rfl
/-- C5. -/
theorem test_get_a_unconfigured :
    exec .getA State.reset = .next (afterResponse State.reset .notConfigured 0 []) := rfl
/-- C9: B is stored unreduced. -/
theorem test_get_b_unreduced :
    exec .getB (configured 0xFFFFFFFF 0xFFFFFFFF) =
      .next (afterResponse (configured 0xFFFFFFFF 0xFFFFFFFF) .ok 0xFFFFFFFF []) := rfl
/-- C7. -/
theorem test_get_dlen_unconfigured :
    exec .getDlen State.reset = .next (afterResponse State.reset .ok 4 []) := rfl
/-- R60's example: 3 · 7 + 11 = 32. -/
theorem test_hash_word :
    exec (.hashWord 7) (configured 3 11) = .next (afterResponse (configured 3 11) .ok 32 []) := by
  have h : mar 3 11 7 = 32 := mar_of_affine_small (by decide)
  rw [← h]; rfl
/-- H9. -/
theorem test_hash_word_unconfigured :
    exec (.hashWord 1) State.reset = .next (afterResponse State.reset .notConfigured 0 []) := rfl
/-- H6: the product wraps to 0, the instance's own coefficients are not used. -/
theorem test_hash_word_ab :
    exec (.hashWordAb 0x80000000 2 5) (configured 1 1) = .next (afterResponse (configured 1 1) .ok 5 []) := by
  have h : mar 2 5 0x80000000 = 5 := mar_of_affine_small (by decide)
  exact congrArg (fun v => Host.Outcome.next (afterResponse (configured 1 1) .ok v [])) h
/-- B1. -/
theorem test_hash_buf :
    exec (.hashBuf 0x1000 5) withBuffer =
      .next (afterResponse withBuffer .ok 0x305 (readEvents 0x1000 5)) := by
  have h : mar 3 5 0x100 = 0x305 := mar_of_affine_small (by decide)
  rw [← h]; rfl
/-- B11: out of range, no read. -/
theorem test_hash_buf_range :
    exec (.hashBuf 0xFFFFFFFF 2) withTopByte = .next (afterResponse withTopByte .rangeError 0 []) := rfl
/-- K1, on bytes of the same memory: key FF at 0x1004, message 01 at 0x1000; 3 · 0x100 + 5. -/
theorem test_hash_keyed :
    exec (.hashKeyed 0x1004 1 0x1000 1) withBuffer =
      .next (afterResponse withBuffer .ok 0x305 [.memRead 0x1004, .memRead 0x1000]) := by
  have h : mar 3 5 0x100 = 0x305 := mar_of_affine_small (by decide)
  rw [← h]; rfl
/-- K7: the key range goes before the unreadable message. -/
theorem test_hash_keyed_range_first :
    exec (.hashKeyed 0xFFFFFFFF 2 0 1) withBuffer = .next (afterResponse withBuffer .rangeError 0 []) := rfl
/-- R69: the stream is opened and the first word asked for. -/
theorem test_hash_file_opens :
    exec (.hashFile 7) (configured 3 5) =
      .next { readingFile with trace := [.streamOpen 7, .streamNext] } := rfl
/-- B20: an Error after a word is never a digest. -/
theorem test_hash_file_error :
    collaboratorAnswer .error (collaboratorAnswer (.word 5) readingFile) =
      afterResponse { readingFile with phase := .idle } .ioError 0 [.streamNext] := rfl

/-! ## Steps, ports and the text form -/

theorem test_step_illegal_packet :
    step (withPacket [0x00000210#32, 1, 2]) =
      .next (afterResponse { configured 3 5 with current := ⟨1, []⟩ } .illegalCommand 0 []) := rfl
theorem test_step_fetch_word :
    step (State.reset.withFetchWord 32 0x00000110) = exec (.hashWord 0) State.reset := rfl
theorem test_port_takes_whole_packet :
    (acceptWord 1 0x7 (acceptWord 1 0x110 State.reset)).queue = [⟨1, [0x110, 0x7], []⟩] := by decide
theorem test_write_marks_queued_packets :
    (hostWrite 0x1000 9 (withPacket [0x00000002#32])).queue = [⟨1, [0x00000002#32], [0x1000]⟩] := by decide
theorem test_file_answers_pad :
    fileAnswersBy .pad [1, 2, 3, 4, 5] = [.word 0x04030201, .word 0x5, .endOfStream] := by decide
theorem test_file_answers_drop :
    fileAnswersBy .drop [1, 2, 3, 4, 5] = [.word 0x04030201, .endOfStream] := by decide
theorem test_assemble_config :
    assembleLine ['C', 'O', 'N', 'F', 'I', 'G', ' ', '3', ',', ' ', '0', 'x', 'f', 'F', ';', 'x'] =
      .packet [0x00000201#32, 3, 0xFF] := by decide
theorem test_assemble_raw_count :
    assembleLine ['.', 'r', 'a', 'w', ' ', '0', 'x', '2', '1', '0', ',', '1'] = .rejected := by decide
theorem test_assemble_literal_range :
    asmLiteral ['4', '2', '9', '4', '9', '6', '7', '2', '9', '6'] = none := by decide

/-! ## Witnesses: the hypotheses of each statement can be met -/

theorem witness_LegalHeadersAreTheNine :
    let s := withPacket [0x00000F05#32, 0, 0, 0, 0, 0, 0, 0, 0, 0, 0, 0, 0, 0, 0, 0]
    s.phase = .idle ∧ engineMoves s ∧
      s.queue = ⟨1, 0x00000F05#32 :: List.replicate 15 0, []⟩ :: [] ∧
      framed (0x00000F05#32 :: List.replicate 15 0) = true ∧ (0x00000F05#32 : Word) ∉ nineHeaders :=
  ⟨rfl, .inl rfl, rfl, by decide, by decide⟩

theorem witness_PacketEntersQueueWhole_whole :
    let p : List Word := [0x00000110#32, 7]
    let s := { State.reset with inputs := sendPacket 1 p ++ [] }
    framed p = true ∧ s.arriving.words = [] ∧ s.arriving.raced = [] ∧ s.inputs = sendPacket 1 p ++ [] :=
  ⟨by decide, rfl, rfl, rfl⟩

theorem witness_PacketEntersQueueWhole_cut_short :
    let p : List Word := [0x00000201#32, 3]
    let s := { State.reset with inputs := sendPacket 1 p ++ [] }
    p ≠ [] ∧ notYetWhole p ∧ s.arriving.words = [] ∧ s.arriving.raced = [] ∧ s.inputs = sendPacket 1 p ++ [] :=
  ⟨by decide, by simp only [notYetWhole]; decide, rfl, rfl, rfl⟩

theorem witness_PacketEntersQueueWhole_other_host :
    let s := { State.reset with arriving := ⟨1, [0x00000110#32], []⟩, inputs := [.word 2 7] }
    s.arriving.words ≠ [] ∧ s.arriving.host ≠ 2 ∧ s.inputs = .word 2 7 :: [] := ⟨by decide, by decide, rfl⟩

theorem witness_AssembledPacketsAreWhole :
    assembleLine ['G', 'E', 'T', '_', 'A'] = .packet [0x00000002#32] := by decide

theorem witness_StepRunsDecodedCommand :
    let s := withPacket [0x00000110#32, 7]
    s.phase = .idle ∧ engineMoves s ∧ s.queue = ⟨1, [0x00000110#32, 7], []⟩ :: [] ∧
      framed [0x00000110#32, 7] = true ∧ decode [0x00000110#32, 7] = .ok (.hashWord 7, []) ∧
      (Instr.hashWord 7).wf = true := ⟨rfl, .inl rfl, rfl, by decide, rfl, rfl⟩

/-- A state with the invariant in which a file is being read, a packet waits and an error was answered. -/
def busyState : State :=
  { readingFile with
    memory := [(0, 1), (0xFFFFFFFF, 2)]
    queue := [⟨1, [0x00000002#32], []⟩]
    responses := [⟨2, .busError, 0⟩]
    arriving := ⟨3, [0x00000110#32], []⟩ }

theorem witness_StepKeepsInvariant : Inv busyState ∧ step busyState = .next busyState :=
  ⟨⟨by decide, by decide, by simp only [busyState, notYetWhole]; decide, fun _ => rfl, by decide, by decide⟩, rfl⟩

theorem witness_EngineNeverStops : Inv busyState := witness_StepKeepsInvariant.1

theorem witness_IdleEngineDoesNothing :
    State.reset.phase = .idle ∧ State.reset.queue = [] ∧ engineMoves State.reset ∧
      step State.reset = .next State.reset ∧ ∀ rest, State.reset.inputs ≠ .reset :: rest :=
  ⟨rfl, rfl, .inl rfl, rfl, fun _ h => by cases h⟩

theorem witness_configured : (configured 3 5).cfgValid = true ∧ State.reset.cfgValid = false := ⟨rfl, rfl⟩

theorem witness_ConfigOncePerReset :
    exec (.config 3 5) State.reset = .next (afterResponse (configured 3 5) .ok 0 []) ∧
      State.reset.cfgValid = false ∧ (configured 3 5).cfgValid = true := ⟨rfl, rfl, rfl⟩

theorem witness_GetAReturnsStoredA : (configured 3 5).cfgValid = true ∧ State.reset.cfgValid = false :=
  witness_configured

theorem witness_GetBReturnsStoredB : (configured 3 5).cfgValid = true ∧ State.reset.cfgValid = false :=
  witness_configured

theorem witness_HashWordUsesInstance :
    (configured 3 5).cfgValid = true ∧ State.reset.cfgValid = false ∧ .reset ∉ (configured 3 5).inputs ∧
      run 1 (configured 3 5) = .next (configured 3 5) := ⟨rfl, rfl, by decide, rfl⟩

theorem witness_HashWordAbUsesItsOwnCoefficients :
    (configured 3 5).cfgValid = true ∧ State.reset.cfgValid = false := witness_configured

theorem witness_CoefficientsStayUntilReset :
    (withPacket [0x00000201#32, 1, 1]).cfgValid = true ∧ .reset ∉ (withPacket [0x00000201#32, 1, 1]).inputs ∧
      run 1 (withPacket [0x00000201#32, 1, 1]) =
        .next (afterResponse { configured 3 5 with current := ⟨1, []⟩ } .alreadyConfigured 0 []) :=
  ⟨rfl, by decide, rfl⟩

theorem witness_UnconfiguredCoefficientsInvisible :
    let s := { State.reset with queue := [⟨1, [0x00000002#32], []⟩] }
    s.cfgValid = false ∧ s.phase = .idle ∧
      run 1 s = .next (afterResponse { State.reset with current := ⟨1, []⟩ } .notConfigured 0 []) :=
  ⟨rfl, rfl, rfl⟩

theorem witness_MarProperties :
    (affine 1 0 0x3FFFFFFF).toNat < 2 ^ 30 ∧ (affine 1 0 0x40000000).toNat < Config.modulus :=
  ⟨by decide, by have := Config.modulus_gt; simpa [affine] using this⟩

/-- The first whole chunk, the last chunk with its one byte, and the only whole record of five bytes. -/
theorem witness_ChunkWordIsLittleEndian :
    4 * 0 < ([1, 2, 3, 4, 5] : List Byte).length ∧ 4 * 1 < ([1, 2, 3, 4, 5] : List Byte).length ∧
      4 * 0 + 4 ≤ ([1, 2, 3, 4, 5] : List Byte).length ∧
      chunkWords [1, 2, 3, 4, 5] = [0x04030201, 0x00000005] ∧
      (readBytes (5#32).toNat (0x1000#32).toNat withBuffer).1 = .value [1, 0, 0, 0, 0xFF] :=
  ⟨by decide, by decide, by decide, by decide, rfl⟩

theorem witness_FoldLaws :
    (readBytes (5#32).toNat (0x1000#32).toNat withBuffer).1 = .value [1, 0, 0, 0, 0xFF] ∧
      4 ∣ ([1, 2, 3, 4] : List Byte).length ∧
      (chunkWords [1, 0, 0, 0, 2]).Perm (chunkWords [2, 0, 0, 0, 1]) :=
  ⟨rfl, by decide, by decide⟩

theorem witness_OverrideIndependence :
    let s := { configured 3 5 with queue := [⟨1, encode (.hashWord 7), []⟩, ⟨1, encode (.hashWordAb 7 1 1), []⟩,
      ⟨1, encode (.hashWord 7), []⟩] }
    s.phase = .idle ∧ s.cfgValid = true ∧ s.inputs = [] ∧
      s.queue = ⟨1, encode (.hashWord 7), []⟩ ::
        ([((7 : Word), (1 : Word), (1 : Word))].map fun o => ⟨1, encode (.hashWordAb o.1 o.2.1 o.2.2), []⟩) ++
        [⟨1, encode (.hashWord 7), []⟩] := ⟨rfl, rfl, rfl, rfl⟩

/-- Success at the top of memory, where addr + len is 2^32 exactly. -/
theorem witness_HashBufHashesItsBuffer_top :
    withTopByte.cfgValid = true ∧ (0xFFFFFFFF#32).toNat + (1#32).toNat ≤ 2 ^ 32 ∧
      ([7] : List Byte).length = (1#32).toNat ∧ holdsBytes withTopByte 0xFFFFFFFF [7] :=
  ⟨rfl, by decide, by decide, by unfold holdsBytes; decide⟩

/-- One byte further is out of range. -/
theorem witness_HashBufHashesItsBuffer_range :
    withTopByte.cfgValid = true ∧ 2 ^ 32 < (0xFFFFFFFF#32).toNat + (2#32).toNat := ⟨rfl, by decide⟩

/-- B13's shape: the last byte is the first unreadable one. -/
theorem witness_HashBufHashesItsBuffer_bus :
    withBuffer.cfgValid = true ∧ (0x1000#32).toNat + (6#32).toNat ≤ 2 ^ 32 ∧ 5 < (6#32).toNat ∧
      (∀ i < 5, Memory.read withBuffer.memory ((0x1000#32).toNat + i) ≠ none) ∧
      Memory.read withBuffer.memory ((0x1000#32).toNat + 5) = none :=
  ⟨rfl, by decide, by decide, by decide, by decide⟩

/-- A host has written the buffer's second byte since the command was sent: one free byte is drawn. -/
theorem witness_HashBufHashesItsBuffer_raced :
    let s := { withBuffer with current := ⟨1, [0x1001]⟩ }
    s.cfgValid = true ∧ (0x1000#32).toNat + (5#32).toNat ≤ 2 ^ 32 ∧
      ([1, 0, 0, 0, 0xFF] : List Byte).length = (5#32).toNat ∧ holdsBytes s 0x1000 [1, 0, 0, 0, 0xFF] ∧
      seenBytes s.current.raced s.freeIndex 0x1000 [1, 0, 0, 0, 0xFF] = [1, Config.racedByte 0, 0, 0, 0xFF] ∧
      drawnBytes s.current.raced 0x1000 5 = 1 :=
  ⟨rfl, by decide, by decide, by unfold holdsBytes; decide, rfl, by decide⟩

theorem witness_HashBufHashesItsBuffer_unconfigured : State.reset.cfgValid = false := rfl

theorem witness_BuffersNeverWrap :
    withTopByte.cfgValid = true ∧ inRange 0xFFFFFFFF 2 = false ∧ inRange 0xFFFFFFFF 1 = true ∧
      exec (.hashBuf 0xFFFFFFFF 2) withTopByte = .next (afterResponse withTopByte .rangeError 0 []) :=
  ⟨rfl, by decide, by decide, rfl⟩

/-- A host has written just below and just above the buffer. -/
theorem witness_HostDutyGivesMemoryBytes :
    let s := { withBuffer with current := ⟨1, [0xFFF, 0x1005]⟩ }
    s.cfgValid = true ∧ (0x1000#32).toNat + (5#32).toNat ≤ 2 ^ 32 ∧
      ([1, 0, 0, 0, 0xFF] : List Byte).length = (5#32).toNat ∧ holdsBytes s 0x1000 [1, 0, 0, 0, 0xFF] ∧
      dutyKept s 0x1000 5 :=
  ⟨rfl, by decide, by decide, by unfold holdsBytes; decide, by unfold dutyKept; decide⟩

theorem witness_EmptyInputHashesToB :
    let s := { readingFile with inputs := [.answer .endOfStream] }
    (configured 3 5).cfgValid = true ∧ s.phase = .busy ⟨7, 0, 0⟩ ∧ s.inputs = .answer .endOfStream :: [] :=
  ⟨rfl, rfl, rfl⟩

theorem witness_HashKeyedFoldsKeyThenMessage_ok :
    withBuffer.cfgValid = true ∧ (0x1000#32).toNat + (5#32).toNat ≤ 2 ^ 32 ∧
      (0x1004#32).toNat + (1#32).toNat ≤ 2 ^ 32 ∧
      ([1, 0, 0, 0, 0xFF] : List Byte).length = (5#32).toNat ∧
      holdsBytes withBuffer 0x1000 [1, 0, 0, 0, 0xFF] ∧
      ([0xFF] : List Byte).length = (1#32).toNat ∧ holdsBytes withBuffer 0x1004 [0xFF] :=
  ⟨rfl, by decide, by decide, by decide, by unfold holdsBytes; decide, by decide, by unfold holdsBytes; decide⟩

theorem witness_HashKeyedFoldsKeyThenMessage_range :
    withBuffer.cfgValid = true ∧ 2 ^ 32 < (0xFFFFFFFF#32).toNat + (2#32).toNat ∧
      State.reset.cfgValid = false := ⟨rfl, by decide, rfl⟩

/-- One byte, raced, is both key and message: each of its two reads draws a free byte of its own. -/
theorem witness_HashKeyedFoldsKeyThenMessage_raced :
    let s := { withBuffer with current := ⟨1, [0x1004]⟩ }
    s.cfgValid = true ∧ (0x1004#32).toNat + (1#32).toNat ≤ 2 ^ 32 ∧
      ([0xFF] : List Byte).length = (1#32).toNat ∧ holdsBytes s 0x1004 [0xFF] ∧
      drawnBytes s.current.raced 0x1004 1 = 1 ∧
      seenBytes s.current.raced (s.freeIndex + 1) 0x1004 [0xFF] = [Config.racedByte 1] :=
  ⟨rfl, by decide, by decide, by unfold holdsBytes; decide, by decide, rfl⟩

/-- The key's second byte is unreadable. -/
theorem witness_HashKeyedFoldsKeyThenMessage_key_bus :
    withBuffer.cfgValid = true ∧ (0x1004#32).toNat + (2#32).toNat ≤ 2 ^ 32 ∧ (0x1000#32).toNat + (1#32).toNat ≤ 2 ^ 32 ∧ 1 < (2#32).toNat ∧
      (∀ i < 1, Memory.read withBuffer.memory ((0x1004#32).toNat + i) ≠ none) ∧
      Memory.read withBuffer.memory ((0x1004#32).toNat + 1) = none :=
  ⟨rfl, by decide, by decide, by decide, by decide, by decide⟩

/-- K8's shape: the key byte is readable, the first message byte is not. -/
theorem witness_HashKeyedFoldsKeyThenMessage_message_bus :
    withBuffer.cfgValid = true ∧ (0x1000#32).toNat + (1#32).toNat ≤ 2 ^ 32 ∧
      (0x3000#32).toNat + (1#32).toNat ≤ 2 ^ 32 ∧
      ([1] : List Byte).length = (1#32).toNat ∧ holdsBytes withBuffer 0x1000 [1] ∧ 0 < (1#32).toNat ∧
      (∀ i < 0, Memory.read withBuffer.memory ((0x3000#32).toNat + i) ≠ none) ∧
      Memory.read withBuffer.memory ((0x3000#32).toNat + 0) = none :=
  ⟨rfl, by decide, by decide, by decide, by unfold holdsBytes; decide, by decide, by decide, by decide⟩

theorem witness_KeyAndMessageCommute :
    ([1] : List Byte).length = (1#32).toNat ∧ holdsBytes withBuffer 0x1000 [1] ∧
      ([0xFF] : List Byte).length = (1#32).toNat ∧ holdsBytes withBuffer 0x1004 [0xFF] ∧
      dutyKept withBuffer 0x1000 1 ∧ dutyKept withBuffer 0x1004 1 :=
  ⟨by decide, by unfold holdsBytes; decide, by decide, by unfold holdsBytes; decide,
    by unfold dutyKept; decide, by unfold dutyKept; decide⟩

/-- P3's handles 7 and 8: words and then End, or Error. -/
theorem witness_HashFileHashesItsStream (last : StreamAnswer) :
    let s := { withPacket (encode (.hashFile 7)) with inputs := [.engine, .answer (.word 5), .answer last] }
    s.cfgValid = true ∧ s.phase = .idle ∧ s.queue = ⟨1, encode (.hashFile 7), []⟩ :: [] ∧
      s.inputs = .engine :: (([5] : List Word).map fun w => .answer (.word w)) ++ .answer last :: [] :=
  ⟨rfl, rfl, rfl, rfl⟩

/-- A packet word comes between two answers. -/
theorem witness_HashFileHashesItsStream_answer (a : StreamAnswer) :
    let s := { readingFile with inputs := [.word 1 0x00000110#32, .answer a] }
    s.phase = .busy ⟨7, 0, 0⟩ ∧ s.inputs = .word 1 0x00000110#32 :: [.answer a] ∧
      ∃ t, step s = .next t ∧ t.phase = .busy ⟨7, 0, 0⟩ ∧ t.inputs = .answer a :: [] :=
  ⟨rfl, rfl, _, rfl, rfl, rfl⟩

theorem witness_HashFileHashesItsStream_waiting :
    readingFile.phase = .busy ⟨7, 0, 0⟩ ∧ engineMoves readingFile ∧ State.reset.cfgValid = false :=
  ⟨rfl, .inl rfl, rfl⟩

theorem witness_HashFileWaitsForItsCollaborator :
    let s := { readingFile with inputs := [.engine, .word 1 0x00000002] }
    s.phase = .busy ⟨7, 0, 0⟩ ∧ .reset ∉ s.inputs ∧ (∀ a, .answer a ∉ s.inputs) ∧
      run 2 s = .next { readingFile with queue := [⟨1, [0x00000002], []⟩] } :=
  ⟨rfl, by decide, by simp, rfl⟩

theorem witness_FileAnswersFoldLikeBytes :
    4 ∣ ([1, 2, 3, 4] : List Byte).length ∧ ¬ 4 ∣ ([1, 2, 3, 4, 5] : List Byte).length :=
  ⟨by decide, by decide⟩

theorem witness_FileHashEqualsBufferHash :
    let s := { withBuffer with
      queue := [⟨1, encode (.hashFile 7), []⟩]
      inputs := .engine :: (fileAnswers (some [1, 0, 0, 0])).map .answer }
    s.cfgValid = true ∧ s.phase = .idle ∧ 4 ∣ ([1, 0, 0, 0] : List Byte).length ∧
      ([1, 0, 0, 0] : List Byte).length = (4#32).toNat ∧ (0x1000#32).toNat + (4#32).toNat ≤ 2 ^ 32 ∧
      holdsBytes s 0x1000 [1, 0, 0, 0] ∧ s.queue = ⟨1, encode (.hashFile 7), []⟩ :: [] ∧
      s.inputs = .engine :: (fileAnswers (some [1, 0, 0, 0])).map .answer :=
  ⟨rfl, rfl, by decide, by decide, by decide, by unfold holdsBytes; decide, rfl, rfl⟩

theorem witness_CommandFrames :
    exec (.config 3 5) State.reset = .next (afterResponse (configured 3 5) .ok 0 []) := rfl

theorem witness_EngineWritesNoMemory :
    step busyState = .next busyState ∧ ∀ addr b rest, busyState.inputs ≠ .write addr b :: rest :=
  ⟨rfl, fun _ _ _ h => by cases h⟩

theorem witness_ReadsStayInsideBuffers :
    exec (.hashBuf 0x1005 1) withBuffer =
      .next (afterResponse withBuffer .busError 0 [.memRead 0x1005]) := rfl

theorem witness_UnconfiguredCommandsAnswerSo :
    State.reset.cfgValid = false ∧ (∀ a b, Instr.hashFile 7 ≠ .config a b) ∧ Instr.hashFile 7 ≠ .getDlen :=
  ⟨rfl, fun _ _ => by simp, by decide⟩

/-- A HASH_FILE before CONFIG, then CONFIG, then an illegal packet. -/
theorem witness_EveryPacketAnsweredInOrder :
    let s := { State.reset with
      queue := [⟨1, [0x00000121#32, 7], []⟩, ⟨1, [0x00000201#32, 3, 5], []⟩, ⟨2, [0x00000000#32], []⟩] }
    s.phase = .idle ∧ s.inputs = [] ∧ (∀ q ∈ s.queue, framed q.words = true) ∧
      s.queue = [] ++ ⟨1, [0x00000121#32, 7], []⟩ ::
        [⟨1, [0x00000201#32, 3, 5], []⟩, ⟨2, [0x00000000#32], []⟩] ∧
      decode [0x00000121#32, 7] = .ok (.hashFile 7, []) ∧ (coefficientsAfter s []).1 = false ∧
      coefficientsAfter s s.queue = (true, 3, 5) ∧
      ∀ before q after h tail, s.queue = before ++ q :: after → decode q.words = .ok (.hashFile h, tail) →
        (coefficientsAfter s before).1 = false := by
  refine ⟨rfl, rfl, by decide, rfl, rfl, rfl, rfl, fun before q after h tail hs hd => ?_⟩
  rcases before with _ | ⟨p, _ | ⟨p', _ | ⟨p'', before⟩⟩⟩ <;> simp at hs
  · rfl
  · obtain ⟨-, rfl, -⟩ := hs; cases hd
  · obtain ⟨-, -, rfl, -⟩ := hs; cases hd

theorem witness_OutcomeDependsOnlyOnItsInputs :
    let s₂ := { withBuffer with queue := [⟨2, [0x00000002#32], []⟩], responses := [⟨2, .ok, 0⟩] }
    withBuffer.paramA = s₂.paramA ∧ withBuffer.paramB = s₂.paramB ∧ withBuffer.cfgValid = s₂.cfgValid ∧
      withBuffer.memory = s₂.memory ∧ withBuffer.current = s₂.current ∧
      withBuffer.freeIndex = s₂.freeIndex ∧
      exec .getA withBuffer = .next (afterResponse withBuffer .ok 3 []) ∧
      exec .getA s₂ = .next (afterResponse s₂ .ok 3 []) := ⟨rfl, rfl, rfl, rfl, rfl, rfl, rfl, rfl⟩

theorem witness_OutcomeDependsOnlyOnItsInputs_answer (a : StreamAnswer) :
    let s₁ := { readingFile with inputs := [.answer a] }
    let s₂ := { busyState with inputs := [.answer a, .reset] }
    s₁.phase = .busy ⟨7, 0, 0⟩ ∧ s₂.phase = .busy ⟨7, 0, 0⟩ ∧ s₁.inputs = .answer a :: [] ∧
      s₂.inputs = .answer a :: [.reset] ∧ s₁.paramA = s₂.paramA ∧ s₁.paramB = s₂.paramB ∧
      s₁.current = s₂.current := ⟨rfl, rfl, rfl, rfl, rfl, rfl, rfl⟩

theorem witness_ConfigSeenByNextCommand :
    let s := { State.reset with queue := [⟨1, encode (.config 3 11), []⟩, ⟨2, encode (.hashWord 7), []⟩] }
    s.phase = .idle ∧ s.cfgValid = false ∧ s.inputs = [] ∧
      s.queue = [⟨1, encode (.config 3 11), []⟩, ⟨2, encode (.hashWord 7), []⟩] := ⟨rfl, rfl, rfl, rfl⟩

theorem witness_ResetAbandonsEverything :
    ({ busyState with inputs := [.reset] } : State).inputs = .reset :: [] := rfl

theorem witness_HostWriteChangesOneByte :
    let s := { busyState with inputs := [.write 0 9] }
    s.inputs = .write 0 9 :: [] ∧ s.arriving.words ≠ [] ∧ State.reset.arriving.words = [] := ⟨rfl, by decide, rfl⟩

/-- Another byte, which a host has written, is read between. -/
theorem witness_ReadsAreRepeatable :
    let s := { withBuffer with current := ⟨1, [0x1001]⟩ }
    0x1000 ∉ s.current.raced ∧ 0x1001 ∈ s.current.raced ∧ (memRead 0x1000 s).1 = .value 1 :=
  ⟨by decide, by decide, rfl⟩

theorem witness_HostTakesItsOldestResponse :
    let s := { State.reset with responses := [⟨1, .ok, 4⟩, ⟨2, .ok, 5⟩], inputs := [.take 2] }
    s.inputs = .take 2 :: [] ∧ s.responses = [⟨1, .ok, 4⟩] ++ ⟨2, .ok, 5⟩ :: [] ∧
      (∀ x ∈ ([⟨1, .ok, 4⟩] : List Response), x.host ≠ 2) ∧ (∀ r ∈ State.reset.responses, r.host ≠ 2) :=
  ⟨rfl, rfl, by decide, by decide⟩

end Sys2Proof.Machine.Tests
end

section
/-! SUPPORT. The outcome of every command, said once: it answers after only reading, it is the CONFIG that stores A
and B, or it is a HASH_FILE that opens its stream. -/

namespace Sys2Proof.Machine

/-- The command ended: after reading at most, exactly one response. -/
def Answered (s t : State) : Prop :=
  ∃ s₁ status value, OnlyRead s s₁ ∧ t = respond status value s₁

theorem answered_respond (status : Status) (value : Word) (s : State) :
    Answered s (respond status value s) := ⟨s, status, value, .refl s, rfl⟩

theorem answered_raiseStatus (status : Status) (s : State) : Answered s (raiseStatus status s) :=
  answered_respond status 0#32 s

theorem answered_respondHash (x : Word) (s : State) : Answered s (respondHash x s) :=
  answered_respond .ok _ s

theorem Answered.after_reading {s s₁ t : State} (h : Answered s₁ t) (hr : OnlyRead s s₁) :
    Answered s t := by
  obtain ⟨s₂, status, value, hr₂, ht⟩ := h
  exact ⟨s₂, status, value, hr.trans hr₂, ht⟩

theorem answered_whenConfigured {k : State → State} {s : State} (hk : Answered s (k s)) :
    Answered s (whenConfigured k s) := by
  rcases whenConfigured_cases k s with ⟨-, h⟩ | ⟨-, h⟩ <;> rw [h]
  · exact answered_raiseStatus _ s
  · exact hk

theorem answered_whenInRange {addr len : Word} {k : State → State} {s : State}
    (hk : Answered s (k s)) : Answered s (whenInRange addr len k s) := by
  rcases whenInRange_cases addr len k s with ⟨-, h⟩ | ⟨-, h⟩ <;> rw [h]
  · exact answered_raiseStatus _ s
  · exact hk

theorem answered_withFold {addr len : Word} {k : Word → State → State} {s : State}
    (hk : ∀ acc s₁, Answered s₁ (k acc s₁)) : Answered s (withFold addr len k s) := by
  rcases withFold_cases addr len k s with ⟨s₁, hr, -, h⟩ | ⟨acc, s₁, hr, -, h⟩ <;> rw [h]
  · exact (answered_raiseStatus _ s₁).after_reading hr
  · exact (hk acc s₁).after_reading hr

/-- The first CONFIG stores A and B; every later one is rejected (R72). -/
theorem execConfig_of_unconfigured (a b : Word) {s : State} (hc : s.cfgValid = false) :
    execConfig a b s = .next (respond .ok 0#32 { s with paramA := a, paramB := b, cfgValid := true }) := by
  simp [execConfig, hc]

theorem execConfig_of_configured (a b : Word) {s : State} (hc : s.cfgValid = true) :
    execConfig a b s = .next (raiseStatus .alreadyConfigured s) := by
  simp [execConfig, hc]

/-- Every command: all that it can do. -/
theorem exec_cases (i : Instr) (s : State) :
    (∃ t, exec i s = .next t ∧ Answered s t) ∨
    (∃ a b, i = .config a b ∧ s.cfgValid = false ∧
      exec i s = .next (respond .ok 0#32 { s with paramA := a, paramB := b, cfgValid := true })) ∨
    (∃ h, i = .hashFile h ∧ s.cfgValid = true ∧ exec i s = .next (streamNext (streamOpen h s))) := by
  cases i with
  | config a b =>
    cases hc : s.cfgValid with
    | false => exact .inr (.inl ⟨a, b, rfl, rfl, execConfig_of_unconfigured a b hc⟩)
    | true => exact .inl ⟨_, execConfig_of_configured a b hc, answered_raiseStatus _ s⟩
  | getA => exact .inl ⟨_, rfl, answered_whenConfigured (answered_respond ..)⟩
  | getB => exact .inl ⟨_, rfl, answered_whenConfigured (answered_respond ..)⟩
  | getDlen => exact .inl ⟨_, rfl, answered_respond ..⟩
  | hashWord key => exact .inl ⟨_, rfl, answered_whenConfigured (answered_respondHash key s)⟩
  | hashWordAb key a b => exact .inl ⟨_, rfl, answered_whenConfigured (answered_respond ..)⟩
  | hashBuf addr len =>
    exact .inl ⟨_, rfl, answered_whenConfigured (answered_whenInRange
      (answered_withFold answered_respondHash))⟩
  | hashFile h =>
    rcases whenConfigured_cases (fun s => streamNext (streamOpen h s)) s with ⟨-, he⟩ | ⟨hc, he⟩
    · exact .inl ⟨_, congrArg Host.Outcome.next he, answered_raiseStatus _ s⟩
    · exact .inr (.inr ⟨h, rfl, hc, congrArg Host.Outcome.next he⟩)
  | hashKeyed kaddr klen maddr mlen =>
    exact .inl ⟨_, rfl, answered_whenConfigured (answered_whenInRange (answered_whenInRange
      (answered_withFold fun _ _ => answered_withFold fun _ _ => answered_respondHash _ _)))⟩

/-- A response with no port event before it, in the statements' words. -/
theorem respond_eq_afterResponse (status : Status) (value : Word) (s : State) :
    respond status value s = afterResponse s status value [] := by
  simp [respond, afterResponse]

end Sys2Proof.Machine
end

section
/-! SUPPORT, then the statement of R19: once CFG_VALID = 1, nothing but the reset input writes A, B or CFG_VALID. -/

namespace Sys2Proof.Machine

/-- A, B, CFG_VALID and the outside's further actions are as they were. -/
structure KeepsInstance (s t : State) : Prop where
  paramA : t.paramA = s.paramA
  paramB : t.paramB = s.paramB
  cfgValid : t.cfgValid = s.cfgValid
  inputs : t.inputs = s.inputs

theorem KeepsInstance.refl (s : State) : KeepsInstance s s := ⟨rfl, rfl, rfl, rfl⟩

theorem KeepsInstance.trans {s t u : State} (h₁ : KeepsInstance s t) (h₂ : KeepsInstance t u) :
    KeepsInstance s u :=
  ⟨h₂.paramA.trans h₁.paramA, h₂.paramB.trans h₁.paramB, h₂.cfgValid.trans h₁.cfgValid,
    h₂.inputs.trans h₁.inputs⟩

theorem OnlyRead.keepsInstance {s t : State} (h : OnlyRead s t) : KeepsInstance s t := by
  rw [h.rest]
  exact ⟨rfl, rfl, rfl, rfl⟩

theorem Answered.keepsInstance {s t : State} (h : Answered s t) : KeepsInstance s t := by
  obtain ⟨s₁, status, value, hr, rfl⟩ := h
  exact hr.keepsInstance.trans ⟨rfl, rfl, rfl, rfl⟩

theorem startPacket_keepsInstance (q : Queued) (rest : List Queued) (s : State) :
    KeepsInstance s (startPacket q rest s) := ⟨rfl, rfl, rfl, rfl⟩

/-- CONFIG alone writes A and B, and only where CFG_VALID = 0. -/
theorem exec_keepsInstance {i : Instr} {s t : State} (hc : s.cfgValid = true)
    (h : exec i s = .next t) : KeepsInstance s t := by
  rcases exec_cases i s with ⟨u, hu, ha⟩ | ⟨a, b, -, hf, -⟩ | ⟨f, -, -, hu⟩
  · obtain rfl : u = t := by simpa [hu] using h
    exact ha.keepsInstance
  · simp [hc] at hf
  · obtain rfl : streamNext (streamOpen f s) = t := by simpa [hu] using h
    exact ⟨rfl, rfl, rfl, rfl⟩

theorem engineTurn_keepsInstance {s t : State} (hc : s.cfgValid = true)
    (h : engineTurn s = .next t) : KeepsInstance s t := by
  rcases engineTurn_cases s with
    ⟨-, hu⟩ | ⟨q, rest, -, -, -, hu⟩ | ⟨q, rest, e, -, -, -, -, hu⟩ | ⟨q, rest, i, tail, -, -, -, -, hu⟩
  all_goals rw [hu] at h
  · cases h
    exact .refl s
  · cases h
  · cases h
    exact (startPacket_keepsInstance q rest s).trans (answered_raiseStatus _ _).keepsInstance
  · exact (startPacket_keepsInstance q rest s).trans (exec_keepsInstance hc h)

theorem acceptWord_keepsInstance (host : Nat) (w : Word) (s : State) :
    KeepsInstance s (acceptWord host w s) := by
  rcases acceptWord_cases host w s with ⟨-, -, h⟩ | ⟨-, -, h⟩ | ⟨-, -, h⟩ <;> rw [h] <;>
    exact ⟨rfl, rfl, rfl, rfl⟩

theorem hostWrite_keepsInstance (addr : Word) (b : Byte) (s : State) :
    KeepsInstance s (hostWrite addr b s) := ⟨rfl, rfl, rfl, rfl⟩

theorem takeResponse_keepsInstance (host : Nat) (s : State) :
    KeepsInstance s (takeResponse host s) := by
  rcases takeResponse_cases host s with ⟨-, h⟩ | ⟨before, r, after, -, -, -, h⟩ <;> rw [h] <;>
    exact ⟨rfl, rfl, rfl, rfl⟩

theorem takeAnswer_keepsInstance (c : FileRun) (a : StreamAnswer) (s : State) :
    KeepsInstance s (takeAnswer c a s) := by
  rcases takeAnswer_cases c a s with ⟨w, -, h⟩ | ⟨-, h⟩ | ⟨-, h⟩ <;> rw [h]
  · exact ⟨rfl, rfl, rfl, rfl⟩
  · exact (answered_respondHash _ s).keepsInstance
  · exact (answered_raiseStatus _ s).keepsInstance

/-- An answer is taken where a HASH_FILE waits for one, and is nothing otherwise (R42). -/
theorem collaboratorAnswer_cases (a : StreamAnswer) (s : State) :
    (s.phase = .idle ∧ collaboratorAnswer a s = s) ∨
    (∃ c, s.phase = .busy c ∧ collaboratorAnswer a s = takeAnswer c a s) := by
  cases hp : s.phase with
  | idle => exact .inl ⟨rfl, by simp [collaboratorAnswer, hp]⟩
  | busy c => exact .inr ⟨c, rfl, by simp [collaboratorAnswer, hp]⟩

theorem collaboratorAnswer_keepsInstance (a : StreamAnswer) (s : State) :
    KeepsInstance s (collaboratorAnswer a s) := by
  rcases collaboratorAnswer_cases a s with ⟨-, h⟩ | ⟨c, -, h⟩ <;> rw [h]
  · exact .refl s
  · exact takeAnswer_keepsInstance c a s

/-- Any step but a reset spends at most its input and keeps A, B and CFG_VALID = 1. -/
theorem step_keepsInstance {s t : State} (hc : s.cfgValid = true) (hr : .reset ∉ s.inputs)
    (h : step s = .next t) : KeepsInstance { s with inputs := s.inputs.tail } t := by
  rcases step_cases s with
    ⟨hi, hu⟩ | ⟨rest, hi, hu⟩ | ⟨host, w, rest, hi, hu⟩ | ⟨addr, b, rest, hi, hu⟩ | ⟨host, rest, hi, hu⟩ |
    ⟨a, rest, hi, hu⟩ | ⟨rest, hi, hu⟩
  case inr.inr.inr.inr.inr.inr => simp [hi] at hr
  all_goals rw [hu] at h
  · have hs : { s with inputs := s.inputs.tail } = s := by rw [hi, List.tail_nil, ← hi]
    rw [hs]
    exact engineTurn_keepsInstance hc h
  all_goals rw [hi, List.tail_cons]
  · exact engineTurn_keepsInstance hc h
  · cases h
    exact acceptWord_keepsInstance ..
  · cases h
    exact hostWrite_keepsInstance ..
  · cases h
    exact takeResponse_keepsInstance ..
  · cases h
    exact collaboratorAnswer_keepsInstance ..

/-- What every step keeps holds at the end of every run. -/
theorem run_keeps {P : State → Prop} (hstep : ∀ s t, P s → step s = .next t → P t) {n : Nat} {s t : State}
    (hs : P s) (h : run n s = .next t) : P t := by
  induction n generalizing s with
  | zero =>
    cases h
    exact hs
  | succ n ih =>
    obtain ⟨u, hu, hrun⟩ := run_succ_cases h
    exact ih (hstep s u hs hu) hrun

/-- The block is configured with a and b, and the outside will not reset the block. -/
structure InstanceStays (a b : Word) (s : State) : Prop where
  paramA : s.paramA = a
  paramB : s.paramB = b
  cfgValid : s.cfgValid = true
  noReset : .reset ∉ s.inputs

theorem step_instanceStays (a b : Word) (s t : State) (hs : InstanceStays a b s)
    (h : step s = .next t) : InstanceStays a b t where
  paramA := (step_keepsInstance hs.cfgValid hs.noReset h).paramA.trans hs.paramA
  paramB := (step_keepsInstance hs.cfgValid hs.noReset h).paramB.trans hs.paramB
  cfgValid := (step_keepsInstance hs.cfgValid hs.noReset h).cfgValid.trans hs.cfgValid
  noReset := by
    rw [(step_keepsInstance hs.cfgValid hs.noReset h).inputs]
    exact fun hm => hs.noReset (List.mem_of_mem_tail hm)

theorem exec_hashWordAb_of_configured (key a b : Word) {s : State} (hc : s.cfgValid = true) :
    exec (.hashWordAb key a b) s = .next (respond .ok (mar a b key) s) := by
  simp [exec, execHashWordAb, whenConfigured, hc]

/-- Settles O16 (R19): the runs by the invariant `InstanceStays`, the two commands by their meanings. -/
theorem coefficientsStayUntilReset : Obligations.CoefficientsStayUntilReset := by
  refine ⟨fun n s t hc hr h => ?_, fun a b s hc => ?_, fun key a b s hc => ?_⟩
  · have ht : InstanceStays s.paramA s.paramB t :=
      run_keeps (step_instanceStays s.paramA s.paramB) ⟨rfl, rfl, hc, hr⟩ h
    exact ⟨ht.paramA, ht.paramB, ht.cfgValid⟩
  · calc exec (.config a b) s
        = .next (raiseStatus .alreadyConfigured s) := execConfig_of_configured a b hc
      _ = .next (afterResponse s .alreadyConfigured 0#32 []) :=
          congrArg _ (respond_eq_afterResponse .alreadyConfigured 0#32 s)
  · exact ⟨_, exec_hashWordAb_of_configured key a b hc, rfl, rfl, rfl⟩

end Sys2Proof.Machine
end

section
/-! SUPPORT, then the statements of R32, R33 and R36: the byte order of a word, the words of a buffer by position, and
the addresses a command reads. -/

namespace Sys2Proof.Machine

/-! ### Byte order -/

theorem toNat_append_eq_add {m n : Nat} (x : BitVec m) (y : BitVec n) :
    (x ++ y).toNat = x.toNat * 2 ^ n + y.toNat := by
  rw [BitVec.toNat_append, ← Nat.shiftLeft_add_eq_or_of_lt y.isLt, Nat.shiftLeft_eq]

theorem le32_toNat (b0 b1 b2 b3 : Byte) :
    (le32 b0 b1 b2 b3).toNat =
      b0.toNat + 2 ^ 8 * b1.toNat + 2 ^ 16 * b2.toNat + 2 ^ 24 * b3.toNat := by
  simp only [le32, toNat_append_eq_add]
  omega

theorem leBytes_toNat (v : Word) :
    (leBytes v).map BitVec.toNat =
      [v.toNat % 2 ^ 8, v.toNat / 2 ^ 8 % 2 ^ 8, v.toNat / 2 ^ 16 % 2 ^ 8, v.toNat / 2 ^ 24 % 2 ^ 8] := by
  simp [leBytes, Nat.shiftRight_eq_div_pow]

/-- The four digits of a word in base 2^8 make up the word again. -/
theorem chunkWords_leBytes (v : Word) : chunkWords (leBytes v) = [v] := by
  have hv : le32 (v.extractLsb' 0 8) (v.extractLsb' 8 8) (v.extractLsb' 16 8) (v.extractLsb' 24 8) = v := by
    apply BitVec.eq_of_toNat_eq
    simp only [le32_toNat, BitVec.extractLsb'_toNat, Nat.shiftRight_eq_div_pow]
    omega
  exact congrArg (· :: []) hv

/-- Settles O21 (R33). -/
theorem digestBytesLittleEndian : Obligations.DigestBytesLittleEndian := fun r =>
  ⟨leBytes_toNat r.value, chunkWords_leBytes r.value⟩

/-! ### The words of a buffer, by position -/

/-- LE32 of the bytes from position 4k on, 0 where there is none. -/
def chunkAt (bs : List Byte) (k : Nat) : Word :=
  le32 (bs.getD (4 * k) 0) (bs.getD (4 * k + 1) 0) (bs.getD (4 * k + 2) 0) (bs.getD (4 * k + 3) 0)

theorem chunkAt_succ (b0 b1 b2 b3 : Byte) (rest : List Byte) (k : Nat) :
    chunkAt (b0 :: b1 :: b2 :: b3 :: rest) (k + 1) = chunkAt rest k := rfl

theorem chunkWords_length (bs : List Byte) : (chunkWords bs).length = (bs.length + 3) / 4 := by
  induction bs using chunkWords.induct with
  | case1 | case2 | case3 | case4 => simp [chunkWords]
  | case5 b0 b1 b2 b3 rest ih =>
    simp only [chunkWords, List.length_cons, ih]
    omega

theorem chunkWords_getElem? (bs : List Byte) (k : Nat) (hk : 4 * k < bs.length) :
    (chunkWords bs)[k]? = some (chunkAt bs k) := by
  induction bs using chunkWords.induct generalizing k with
  | case1 => simp at hk
  | case2 | case3 | case4 =>
    obtain rfl : k = 0 := by simp only [List.length_cons, List.length_nil] at hk; omega
    rfl
  | case5 b0 b1 b2 b3 rest ih =>
    cases k with
    | zero => rfl
    | succ k =>
      rw [chunkAt_succ, ← ih k (by simp only [List.length_cons] at hk; omega)]
      rfl

/-- The whole records of a file are the whole chunks of its bytes, whatever becomes of a partial one (R42, R43). -/
theorem fileAnswersBy_getElem? (policy : Config.TailPolicy) (bs : List Byte) (k : Nat)
    (hk : 4 * k + 4 ≤ bs.length) :
    (fileAnswersBy policy bs)[k]? = (chunkWords bs)[k]?.map .word := by
  induction bs using chunkWords.induct generalizing k with
  | case1 | case2 | case3 | case4 => simp at hk
  | case5 b0 b1 b2 b3 rest ih =>
    cases k with
    | zero => rfl
    | succ k => exact ih k (by simp only [List.length_cons] at hk; omega)

theorem fold_of_readBytes {addr len : Word} {s : State} {bs : List Byte}
    (h : (readBytes len.toNat addr.toNat s).1 = .value bs) : (fold addr len s).1 = .value (foldBytes bs) := by
  unfold fold
  rcases hr : readBytes len.toNat addr.toNat s with ⟨r, s₁⟩
  rw [hr] at h
  cases h
  rfl

/-- Settles O20 (R32): the records of a file are chunks of its bytes. -/
theorem chunkWordIsLittleEndian : Obligations.ChunkWordIsLittleEndian := by
  refine ⟨fun b0 b1 b2 b3 => ⟨le32_toNat b0 b1 b2 b3, rfl⟩, chunkWords_length, chunkWords_getElem?,
    fun _ _ _ _ => fold_of_readBytes, fun policy bs k hk => ?_⟩
  calc (fileAnswersBy policy bs)[k]?
      = (chunkWords bs)[k]?.map .word := fileAnswersBy_getElem? policy bs k hk
    _ = some (.word (chunkAt bs k)) := by rw [chunkWords_getElem? bs k (by omega), Option.map_some]

/-! ### The addresses a command reads -/

theorem inRange_iff (addr len : Word) : inRange addr len = true ↔ addr.toNat + len.toNat ≤ 2 ^ 32 :=
  decide_eq_true_iff

/-- From s to t the ports carried further events, and every read among them was at an address with P. -/
def ReadsAt (P : Nat → Prop) (s t : State) : Prop :=
  ∃ events, t.trace = s.trace ++ events ∧ ∀ a, .memRead a ∈ events → P a

section
variable {P : Nat → Prop}

theorem ReadsAt.refl (s : State) : ReadsAt P s s := ⟨[], by simp, by simp⟩

theorem ReadsAt.trans {s t u : State} (h₁ : ReadsAt P s t) (h₂ : ReadsAt P t u) : ReadsAt P s u := by
  obtain ⟨es₁, ht, hP₁⟩ := h₁
  obtain ⟨es₂, hu, hP₂⟩ := h₂
  refine ⟨es₁ ++ es₂, by rw [hu, ht, List.append_assoc], fun a ha => ?_⟩
  rcases List.mem_append.mp ha with ha | ha
  · exact hP₁ a ha
  · exact hP₂ a ha

/-- One event more, which is a read at an address with P if it is a read. -/
theorem readsAt_of_event {s t : State} (e : PortEvent) (ht : t.trace = s.trace ++ [e])
    (he : ∀ a, .memRead a = e → P a) : ReadsAt P s t :=
  ⟨[e], ht, fun a ha => he a (List.mem_singleton.mp ha)⟩

theorem memRead_readsAt {a : Nat} (ha : P a) (s : State) : ReadsAt P s (memRead a s).2 := by
  have ht : (memRead a s).2.trace = s.trace ++ [.memRead a] := by
    rcases memRead_cases a s with ⟨-, h⟩ | ⟨b, -, -, h⟩ | ⟨b, -, -, h⟩ <;> rw [h] <;> rfl
  refine readsAt_of_event _ ht fun a' h => ?_
  obtain rfl : a' = a := by simpa using h
  exact ha

/-- Reading a buffer stops at its first byte with BusError, or goes on behind it. -/
theorem readBytes_succ_cases (n a : Nat) (s : State) :
    (∃ s₁, memRead a s = (.busError, s₁) ∧ readBytes (n + 1) a s = (.busError, s₁)) ∨
    (∃ b s₁, memRead a s = (.value b, s₁) ∧ (readBytes (n + 1) a s).2 = (readBytes n (a + 1) s₁).2) := by
  simp only [readBytes]
  rcases memRead a s with ⟨r, s₁⟩
  cases r with
  | busError => exact .inl ⟨s₁, rfl, rfl⟩
  | value b =>
    refine .inr ⟨b, s₁, rfl, ?_⟩
    dsimp only
    rcases readBytes n (a + 1) s₁ with ⟨_ | _, s₂⟩ <;> rfl

theorem readBytes_readsAt {n a : Nat} (hP : ∀ i < n, P (a + i)) (s : State) :
    ReadsAt P s (readBytes n a s).2 := by
  induction n generalizing a s with
  | zero => exact .refl s
  | succ n ih =>
    have h₁ : ReadsAt P s (memRead a s).2 := memRead_readsAt (hP 0 (by omega)) s
    rcases readBytes_succ_cases n a s with ⟨s₁, hm, h⟩ | ⟨b, s₁, hm, h⟩ <;> rw [h] <;> rw [hm] at h₁
    · exact h₁
    · refine h₁.trans (ih (fun i hi => ?_) s₁)
      have hi' := hP (i + 1) (by omega)
      rwa [Nat.add_assoc, Nat.add_comm 1 i]

theorem fold_snd (addr len : Word) (s : State) :
    (fold addr len s).2 = (readBytes len.toNat addr.toNat s).2 := by
  unfold fold
  rcases readBytes len.toNat addr.toNat s with ⟨_ | _, s₁⟩ <;> rfl

theorem fold_readsAt {addr len : Word} (hP : ∀ i < len.toNat, P (addr.toNat + i)) (s : State) :
    ReadsAt P s (fold addr len s).2 := by
  rw [fold_snd]
  exact readBytes_readsAt hP s

theorem respond_readsAt (status : Status) (value : Word) (s : State) : ReadsAt P s (respond status value s) :=
  readsAt_of_event _ (respond_trace s status value) (by simp)

theorem raiseStatus_readsAt (status : Status) (s : State) : ReadsAt P s (raiseStatus status s) :=
  respond_readsAt status 0#32 s

theorem respondHash_readsAt (x : Word) (s : State) : ReadsAt P s (respondHash x s) :=
  respond_readsAt .ok _ s

theorem hashFileOpens_readsAt (h : Word) (s : State) : ReadsAt P s (streamNext (streamOpen h s)) :=
  (readsAt_of_event _ (streamOpen_trace s h) (by simp)).trans
    (readsAt_of_event _ (streamNext_trace (streamOpen h s)) (by simp))

theorem whenConfigured_readsAt {k : State → State} {s : State} (hk : ReadsAt P s (k s)) :
    ReadsAt P s (whenConfigured k s) := by
  rcases whenConfigured_cases k s with ⟨-, h⟩ | ⟨-, h⟩ <;> rw [h]
  · exact raiseStatus_readsAt _ s
  · exact hk

theorem whenInRange_readsAt {addr len : Word} {k : State → State} {s : State}
    (hk : inRange addr len = true → ReadsAt P s (k s)) : ReadsAt P s (whenInRange addr len k s) := by
  rcases whenInRange_cases addr len k s with ⟨-, h⟩ | ⟨hr, h⟩ <;> rw [h]
  · exact raiseStatus_readsAt _ s
  · exact hk hr

theorem withFold_readsAt {addr len : Word} {k : Word → State → State} (hP : ∀ i < len.toNat, P (addr.toNat + i))
    (hk : ∀ acc s₁, ReadsAt P s₁ (k acc s₁)) (s : State) : ReadsAt P s (withFold addr len k s) := by
  have hf : ReadsAt P s (fold addr len s).2 := fold_readsAt hP s
  rcases withFold_cases addr len k s with ⟨s₁, -, hs₁, h⟩ | ⟨acc, s₁, -, hs₁, h⟩
  all_goals rw [h]; rw [hs₁] at hf
  · exact hf.trans (raiseStatus_readsAt _ s₁)
  · exact hf.trans (hk acc s₁)

end

/-- A buffer in range has no byte past the top of memory. -/
theorem byte_below_top {addr len : Word} (hr : inRange addr len = true) :
    ∀ i < len.toNat, addr.toNat + i < 2 ^ 32 := by
  have := (inRange_iff addr len).mp hr
  omega

/-- Every command reads below 2^32 only: each fold comes behind the range check of its buffer. -/
theorem exec_readsAt_below_top {i : Instr} {s t : State} (h : exec i s = .next t) : ReadsAt (· < 2 ^ 32) s t := by
  cases i with
  | config a b =>
    cases hc : s.cfgValid with
    | false =>
      cases (execConfig_of_unconfigured a b hc).symm.trans h
      exact respond_readsAt ..
    | true =>
      cases (execConfig_of_configured a b hc).symm.trans h
      exact raiseStatus_readsAt ..
  | getA | getB | hashWordAb =>
    cases h
    exact whenConfigured_readsAt (respond_readsAt ..)
  | getDlen =>
    cases h
    exact respond_readsAt ..
  | hashWord key =>
    cases h
    exact whenConfigured_readsAt (respondHash_readsAt key s)
  | hashFile f =>
    cases h
    exact whenConfigured_readsAt (hashFileOpens_readsAt f s)
  | hashBuf addr len =>
    cases h
    exact whenConfigured_readsAt (whenInRange_readsAt fun hr =>
      withFold_readsAt (byte_below_top hr) respondHash_readsAt s)
  | hashKeyed kaddr klen maddr mlen =>
    cases h
    exact whenConfigured_readsAt (whenInRange_readsAt fun hk => whenInRange_readsAt fun hm =>
      withFold_readsAt (byte_below_top hk)
        (fun _ s₁ => withFold_readsAt (byte_below_top hm) (fun _ => respondHash_readsAt _) s₁) s)

theorem whenConfigured_of_configured {k : State → State} {s : State} (hc : s.cfgValid = true) :
    whenConfigured k s = k s := by
  simp [whenConfigured, hc]

theorem whenInRange_of_inRange {addr len : Word} {k : State → State} {s : State}
    (hr : inRange addr len = true) : whenInRange addr len k s = k s := by
  simp [whenInRange, hr]

theorem whenInRange_of_not_inRange {addr len : Word} {k : State → State} {s : State}
    (hr : inRange addr len = false) : whenInRange addr len k s = afterResponse s .rangeError 0#32 [] := by
  simp [whenInRange, hr, raiseStatus, respond_eq_afterResponse]

theorem exec_hashBuf_of_not_inRange {addr len : Word} {s : State} (hc : s.cfgValid = true)
    (hr : inRange addr len = false) :
    exec (.hashBuf addr len) s = .next (afterResponse s .rangeError 0#32 []) :=
  congrArg Host.Outcome.next ((whenConfigured_of_configured hc).trans (whenInRange_of_not_inRange hr))

/-- The range checks of both buffers come before the first read (R70). -/
theorem exec_hashKeyed_of_not_inRange {kaddr klen maddr mlen : Word} {s : State} (hc : s.cfgValid = true)
    (hr : inRange kaddr klen = false ∨ inRange maddr mlen = false) :
    exec (.hashKeyed kaddr klen maddr mlen) s = .next (afterResponse s .rangeError 0#32 []) := by
  refine congrArg Host.Outcome.next ((whenConfigured_of_configured hc).trans ?_)
  cases hk : inRange kaddr klen with
  | false => exact whenInRange_of_not_inRange hk
  | true =>
    have hm : inRange maddr mlen = false := hr.resolve_left (by simp [hk])
    exact (whenInRange_of_inRange hk).trans (whenInRange_of_not_inRange hm)

/-- Settles O27 (R36): the reads of every command by `exec_readsAt_below_top`. -/
theorem buffersNeverWrap : Obligations.BuffersNeverWrap :=
  ⟨inRange_iff, fun addr => (inRange_iff addr 0#32).mpr addr.isLt.le,
    fun _ _ _ => exec_hashBuf_of_not_inRange,
    fun _ _ _ _ _ => exec_hashKeyed_of_not_inRange,
    fun _ _ _ => exec_readsAt_below_top⟩

end Sys2Proof.Machine
end

section
/-! SUPPORT, then the statements of R52, R53 and R56: the fields of a header as numbers, the nine legal headers, and
what becomes of a whole packet with any other header. -/

namespace Sys2Proof.Machine

/-! ### Header fields as numbers (R49) -/

theorem headerOpc_toNat (h : Word) : (headerOpc h).toNat = h.toNat % 2 ^ 8 := by
  simp [headerOpc]

theorem headerNops_toNat (h : Word) : (headerNops h).toNat = h.toNat / 2 ^ 8 % 2 ^ 4 := by
  simp [headerNops, Nat.shiftRight_eq_div_pow]

theorem headerRsvd_toNat (h : Word) : (headerRsvd h).toNat = h.toNat / 2 ^ 12 := by
  have hlt : h.toNat / 2 ^ 12 < 2 ^ 20 := by omega
  simp only [headerRsvd, BitVec.extractLsb'_toNat, Nat.shiftRight_eq_div_pow, Nat.mod_eq_of_lt hlt]

theorem headerRsvd_eq_zero_iff (h : Word) : headerRsvd h = 0#20 ↔ h.toNat / 2 ^ 12 = 0 := by
  rw [← headerRsvd_toNat]
  exact BitVec.toNat_inj.symm

theorem framed_cons_iff (h : Word) (ops : List Word) :
    framed (h :: ops) = true ↔ ops.length = (headerNops h).toNat := by
  simp [framed, packetLength, Nat.add_comm 1]

/-- Settles O3 (R53). -/
theorem packetLengthFromHeader : Obligations.PacketLengthFromHeader := by
  intro h ops
  rw [← headerNops_toNat]
  exact ⟨rfl, framed_cons_iff h ops⟩

/-! ### The nine legal headers (R51, R52) -/

/-- The pairs (OPC, NOPS) of R51's table. -/
def ninePairs : List (BitVec 8 × BitVec 4) :=
  [(0x01, 2), (0x02, 0), (0x03, 0), (0x04, 0), (0x10, 1), (0x11, 3), (0x20, 2), (0x21, 1), (0x22, 4)]

/-- `assignedNops` is the table: no opcode stands in it twice. -/
theorem assignedNops_eq_some_iff (opc : BitVec 8) (n : BitVec 4) :
    assignedNops opc = some n ↔ (opc, n) ∈ ninePairs := by
  constructor
  · intro h
    unfold assignedNops at h
    split_ifs at h <;> cases h <;> subst opc <;> decide
  · have htable : ∀ p ∈ ninePairs, assignedNops p.1 = some p.2 := by simp [ninePairs, assignedNops]
    exact htable (opc, n)

theorem legalHeader_iff_fields (h : Word) :
    legalHeader h = true ↔ headerRsvd h = 0#20 ∧ assignedNops (headerOpc h) = some (headerNops h) := by
  simp [legalHeader]

theorem legalHeader_iff_ninePairs (h : Word) :
    legalHeader h = true ↔ headerRsvd h = 0#20 ∧ (headerOpc h, headerNops h) ∈ ninePairs := by
  rw [legalHeader_iff_fields, assignedNops_eq_some_iff]

/-- The table as numbers. -/
theorem mem_ninePairs_iff_toNat (opc : BitVec 8) (n : BitVec 4) :
    (opc, n) ∈ ninePairs ↔ (opc.toNat, n.toNat) ∈
      [(0x01, 2), (0x02, 0), (0x03, 0), (0x04, 0), (0x10, 1), (0x11, 3), (0x20, 2), (0x21, 1), (0x22, 4)] := by
  have hinj : Function.Injective (Prod.map BitVec.toNat BitVec.toNat : BitVec 8 × BitVec 4 → Nat × Nat) :=
    Function.Injective.prodMap (fun _ _ => BitVec.eq_of_toNat_eq) (fun _ _ => BitVec.eq_of_toNat_eq)
  exact (List.mem_map_of_injective hinj (l := ninePairs) (a := (opc, n))).symm

/-- The table as header words. -/
theorem nineHeaders_eq_map : nineHeaders = ninePairs.map fun p => headerWord p.1 p.2 := by decide

theorem legalHeader_iff_mem_nineHeaders (h : Word) : legalHeader h = true ↔ h ∈ nineHeaders := by
  rw [legalHeader_iff_ninePairs, nineHeaders_eq_map, List.mem_map]
  constructor
  · rintro ⟨hr, hp⟩
    exact ⟨_, hp, (header_of_fields h hr).symm⟩
  · rintro ⟨p, hp, rfl⟩
    simpa using hp

/-! ### Decoding a whole packet (R52) -/

theorem decode_cons_of_legal {h : Word} (hl : legalHeader h = true) (ops : List Word) :
    decode (h :: ops) = decodeOperands (headerOpc h) ops := by
  obtain ⟨hr, ha⟩ := (legalHeader_iff_fields h).mp hl
  simp [decode, hr, ha]

/-- The header alone decides: the operand words are not looked at. -/
theorem decode_cons_of_not_legal {h : Word} (hl : legalHeader h ≠ true) (ops : List Word) :
    ∃ e, decode (h :: ops) = .error e := by
  by_cases hr : headerRsvd h = 0#20
  · cases ha : assignedNops (headerOpc h) with
    | none => exact ⟨.unassignedOpcode, by simp [decode, hr, ha]⟩
    | some n =>
      have hn : headerNops h ≠ n := fun hn => hl ((legalHeader_iff_fields h).mpr ⟨hr, hn ▸ ha⟩)
      exact ⟨.wrongOperandCount, by simp [decode, hr, ha, hn]⟩
  · exact ⟨.reservedBits, by simp [decode, hr]⟩

/-- An assigned opcode with as many operand words as R51 says is a command, and no word is left over. -/
theorem decodeOperands_of_assigned {opc : BitVec 8} {n : BitVec 4} (ha : assignedNops opc = some n)
    {ops : List Word} (hlen : ops.length = n.toNat) : ∃ i, decodeOperands opc ops = .ok (i, []) := by
  have hp := (assignedNops_eq_some_iff opc n).mp ha
  simp only [ninePairs, List.mem_cons, Prod.mk.injEq, List.not_mem_nil, or_false] at hp
  rcases hp with ⟨rfl, rfl⟩ | ⟨rfl, rfl⟩ | ⟨rfl, rfl⟩ | ⟨rfl, rfl⟩ | ⟨rfl, rfl⟩ | ⟨rfl, rfl⟩ | ⟨rfl, rfl⟩ |
    ⟨rfl, rfl⟩ | ⟨rfl, rfl⟩
  · obtain ⟨a, b, rfl⟩ := List.length_eq_two.mp hlen
    exact ⟨.config a b, rfl⟩
  · obtain rfl := List.eq_nil_of_length_eq_zero hlen
    exact ⟨.getA, rfl⟩
  · obtain rfl := List.eq_nil_of_length_eq_zero hlen
    exact ⟨.getB, rfl⟩
  · obtain rfl := List.eq_nil_of_length_eq_zero hlen
    exact ⟨.getDlen, rfl⟩
  · obtain ⟨key, rfl⟩ := List.length_eq_one_iff.mp hlen
    exact ⟨.hashWord key, rfl⟩
  · obtain ⟨key, a, b, rfl⟩ := List.length_eq_three.mp hlen
    exact ⟨.hashWordAb key a b, rfl⟩
  · obtain ⟨addr, len, rfl⟩ := List.length_eq_two.mp hlen
    exact ⟨.hashBuf addr len, rfl⟩
  · obtain ⟨f, rfl⟩ := List.length_eq_one_iff.mp hlen
    exact ⟨.hashFile f, rfl⟩
  · obtain ⟨kaddr, klen, maddr, mlen, rfl⟩ := List.length_eq_four.mp hlen
    exact ⟨.hashKeyed kaddr klen maddr mlen, rfl⟩

theorem legalHeader_iff_decode_whole {h : Word} {ops : List Word} (hf : framed (h :: ops) = true) :
    legalHeader h = true ↔ ∃ i, decode (h :: ops) = .ok (i, []) := by
  constructor
  · intro hl
    obtain ⟨-, ha⟩ := (legalHeader_iff_fields h).mp hl
    rw [decode_cons_of_legal hl]
    exact decodeOperands_of_assigned ha ((framed_cons_iff h ops).mp hf)
  · rintro ⟨i, hd⟩
    by_contra hl
    obtain ⟨e, he⟩ := decode_cons_of_not_legal hl ops
    cases he.symm.trans hd

/-! ### The engine at a packet that does not decode -/

/-- Where the engine has the turn, the step is that turn, and the turn is spent. -/
theorem step_of_engineMoves {s : State} (hm : engineMoves s) :
    step s = engineTurn { s with inputs := s.inputs.tail } := by
  rcases hm with hi | ⟨rest, hi⟩
  · have hs : { s with inputs := s.inputs.tail } = s := by rw [hi, List.tail_nil, ← hi]
    rw [hs]
    simp [step, hi]
  · simp [step, hi]

/-- A whole packet that does not decode is taken and answered ILLEGAL_COMMAND (R52). -/
theorem engineTurn_of_decode_error {s : State} {q : Queued} {rest : List Queued} {e : Reject}
    (hp : s.phase = .idle) (hq : s.queue = q :: rest) (hf : framed q.words = true)
    (hd : decode q.words = .error e) :
    engineTurn s = .next (raiseStatus .illegalCommand (startPacket q rest s)) := by
  simp [engineTurn, hp, hq, hf, hd]

/-- Settles O2 (R52, R56): legality by the table `ninePairs`, the last clause by `decode_cons_of_not_legal`. -/
theorem legalHeadersAreTheNine : Obligations.LegalHeadersAreTheNine := by
  refine ⟨fun h => ?_, legalHeader_iff_mem_nineHeaders, fun h ops => legalHeader_iff_decode_whole,
    fun s host h ops raced rest hp hm hq hf hn => ?_⟩
  · rw [legalHeader_iff_ninePairs, headerRsvd_eq_zero_iff, mem_ninePairs_iff_toNat, headerOpc_toNat,
      headerNops_toNat]
  · obtain ⟨e, hd⟩ := decode_cons_of_not_legal (mt (legalHeader_iff_mem_nineHeaders h).mp hn) ops
    calc step s
        = engineTurn { s with inputs := s.inputs.tail } := step_of_engineMoves hm
      _ = .next (raiseStatus .illegalCommand (started s ⟨host, h :: ops, raced⟩ rest)) :=
          engineTurn_of_decode_error hp hq hf hd
      _ = .next (afterResponse (started s ⟨host, h :: ops, raced⟩ rest) .illegalCommand 0#32 []) :=
          congrArg _ (respond_eq_afterResponse .illegalCommand 0#32 _)

end Sys2Proof.Machine
end

section
/-! SUPPORT, then the statements of R58 and R59: t and MAR as numbers, and how many times M is taken away. -/

namespace Sys2Proof.Machine

theorem affine_toNat (a b x : Word) :
    (affine a b x).toNat = (a.toNat * x.toNat % 2 ^ 32 + b.toNat) % 2 ^ 32 := by
  simp [affine]

/-- M is below 2^32, so the remainder fits a word. -/
theorem mar_toNat (a b x : Word) : (mar a b x).toNat = (affine a b x).toNat % Config.modulus := by
  have hM := Config.modulus_lt
  have hpos : 0 < Config.modulus := Nat.zero_lt_of_lt Config.modulus_gt
  have hlt : (affine a b x).toNat % Config.modulus < 2 ^ 32 := (Nat.mod_lt _ hpos).trans hM
  rw [mar, marBy, BitVec.toNat_ofNat, Nat.mod_eq_of_lt hlt]

theorem mar_lt_modulus (a b x : Word) : (mar a b x).toNat < Config.modulus := by
  rw [mar_toNat]
  exact Nat.mod_lt _ (Nat.zero_lt_of_lt Config.modulus_gt)

theorem mar_eq_affine_of_lt {a b x : Word} (h : (affine a b x).toNat < Config.modulus) :
    mar a b x = affine a b x := by
  apply BitVec.eq_of_toNat_eq
  rw [mar_toNat, Nat.mod_eq_of_lt h]

theorem mar_toNat_of_zero_coefficient (b x : Word) : (mar 0#32 b x).toNat = b.toNat % Config.modulus := by
  simp [mar_toNat, affine]

theorem mar_toNat_of_zero_key (a b : Word) : (mar a b 0#32).toNat = b.toNat % Config.modulus := by
  simp [mar_toNat, affine]

/-- Bit 31 weighs 2^31, and the result lies below M. -/
theorem modulus_gt_of_mar_bit31 {a b x : Word} (h : (mar a b x).getLsbD 31 = true) :
    2 ^ 31 < Config.modulus :=
  (Nat.ge_two_pow_of_testBit h).trans_lt (mar_lt_modulus a b x)

/-- A word is below 2^32 and M above 2^30. -/
theorem toNat_lt_four_mul_modulus (t : Word) : t.toNat < 4 * Config.modulus := by
  have hM := Config.modulus_gt
  omega

/-- The number of times M is taken away is the quotient of t by M. -/
theorem affine_toNat_eq_mar_add_mul (a b x : Word) :
    ∃ k ∈ [0, 1, 2, 3], (affine a b x).toNat = (mar a b x).toNat + k * Config.modulus := by
  have hk : (affine a b x).toNat / Config.modulus < 4 :=
    Nat.div_lt_of_lt_mul (by rw [mul_comm]; exact toNat_lt_four_mul_modulus _)
  refine ⟨(affine a b x).toNat / Config.modulus, ?_, ?_⟩
  · show _ ∈ List.range 4
    exact List.mem_range.mpr hk
  · rw [mar_toNat, mul_comm]
    exact (Nat.mod_add_div _ _).symm

/-- Settles O18 (R58). -/
theorem marWrapsThenReduces : Obligations.MarWrapsThenReduces := by
  intro a b x
  constructor
  · rw [mar_toNat, affine_toNat]
  · exact Nat.mod_add_mod _ _ _

/-- Settles O19 (R59), a lemma for each property. -/
theorem marProperties : Obligations.MarProperties := fun a b x =>
  ⟨⟨mar_lt_modulus a b x, Config.modulus_lt, modulus_gt_of_mar_bit31⟩,
    ⟨toNat_lt_four_mul_modulus _, affine_toNat_eq_mar_add_mul a b x⟩,
    ⟨mar_eq_affine_of_lt, mar_of_affine_small⟩,
    mar_toNat_of_zero_coefficient b x,
    mar_toNat_of_zero_key a b,
    rfl⟩

end Sys2Proof.Machine
end

section
/-! SUPPORT, then the statements of R60 and R61: the decoder against the encoder, and the two word-form hashes
with CFG_VALID = 1 and with CFG_VALID = 0. -/

namespace Sys2Proof.Machine

/-! ### The packet of a command (R51) -/

theorem decode_encode_append (i : Instr) (rest : List Word) : decode (encode i ++ rest) = .ok (i, rest) := by
  cases i <;> rfl

/-- The operand words an assigned opcode takes are those the encoder writes after its header. -/
theorem encode_append_of_decodeOperands {opc : BitVec 8} {n : BitVec 4} {ops rest : List Word} {i : Instr}
    (ha : assignedNops opc = some n) (h : decodeOperands opc ops = .ok (i, rest)) :
    headerWord opc n :: ops = encode i ++ rest := by
  have hp := (assignedNops_eq_some_iff opc n).mp ha
  simp only [ninePairs, List.mem_cons, Prod.mk.injEq, List.not_mem_nil, or_false] at hp
  rcases hp with ⟨rfl, rfl⟩ | ⟨rfl, rfl⟩ | ⟨rfl, rfl⟩ | ⟨rfl, rfl⟩ | ⟨rfl, rfl⟩ | ⟨rfl, rfl⟩ | ⟨rfl, rfl⟩ |
    ⟨rfl, rfl⟩ | ⟨rfl, rfl⟩
  · match ops, h with | _ :: _ :: _, rfl => rfl
  · cases h; rfl
  · cases h; rfl
  · cases h; rfl
  · match ops, h with | _ :: _, rfl => rfl
  · match ops, h with | _ :: _ :: _ :: _, rfl => rfl
  · match ops, h with | _ :: _ :: _, rfl => rfl
  · match ops, h with | _ :: _, rfl => rfl
  · match ops, h with | _ :: _ :: _ :: _ :: _, rfl => rfl

/-- The decoder reads a command exactly from the words the encoder writes for it. -/
theorem decode_eq_ok_iff (i : Instr) (p rest : List Word) :
    decode p = .ok (i, rest) ↔ p = encode i ++ rest := by
  constructor
  · intro hd
    cases p with
    | nil => cases hd
    | cons h ops =>
      have hl : legalHeader h = true := by
        by_contra hl
        obtain ⟨e, he⟩ := decode_cons_of_not_legal hl ops
        cases he.symm.trans hd
      obtain ⟨hr, ha⟩ := (legalHeader_iff_fields h).mp hl
      rw [decode_cons_of_legal hl] at hd
      rw [header_of_fields h hr]
      exact encode_append_of_decodeOperands (by simpa using ha) (by simpa using hd)
  · rintro rfl
    exact decode_encode_append i rest

/-! ### The two commands -/

theorem whenConfigured_of_unconfigured {k : State → State} {s : State} (hc : s.cfgValid = false) :
    whenConfigured k s = afterResponse s .notConfigured 0#32 [] := by
  simp [whenConfigured, hc, raiseStatus, respond_eq_afterResponse]

theorem exec_hashWord_of_configured (key : Word) {s : State} (hc : s.cfgValid = true) :
    exec (.hashWord key) s = .next (respond .ok (mar s.paramA s.paramB key) s) :=
  congrArg Host.Outcome.next (whenConfigured_of_configured hc)

theorem exec_hashWord_of_unconfigured (key : Word) {s : State} (hc : s.cfgValid = false) :
    exec (.hashWord key) s = .next (afterResponse s .notConfigured 0#32 []) :=
  congrArg Host.Outcome.next (whenConfigured_of_unconfigured hc)

theorem exec_hashWordAb_of_unconfigured (key a b : Word) {s : State} (hc : s.cfgValid = false) :
    exec (.hashWordAb key a b) s = .next (afterResponse s .notConfigured 0#32 []) :=
  congrArg Host.Outcome.next (whenConfigured_of_unconfigured hc)

/-- With A and B as its own coefficients the override is no override (R61). -/
theorem exec_hashWordAb_paramA_paramB (key : Word) (s : State) :
    exec (.hashWordAb key s.paramA s.paramB) s = exec (.hashWord key) s := by
  cases hc : s.cfgValid with
  | false => rw [exec_hashWordAb_of_unconfigured _ _ _ hc, exec_hashWord_of_unconfigured _ hc]
  | true => rw [exec_hashWordAb_of_configured _ _ _ hc, exec_hashWord_of_configured _ hc]

/-- Settles O23 (R60): the last clause because A, B and CFG_VALID stay (`coefficientsStayUntilReset`). -/
theorem hashWordUsesInstance : Obligations.HashWordUsesInstance := by
  intro key s
  have hanswer : ∀ t : State, t.cfgValid = true →
      exec (.hashWord key) t = .next (afterResponse t .ok (mar t.paramA t.paramB key) []) := fun t hc => by
    rw [exec_hashWord_of_configured key hc, respond_eq_afterResponse]
  refine ⟨decode_eq_ok_iff (.hashWord key), hanswer s, exec_hashWord_of_unconfigured key, ?_,
    fun n t hc hr hrun => ?_⟩
  · rw [mar_toNat, affine_toNat, Nat.mod_add_mod]
  · obtain ⟨hA, hB, ht⟩ := coefficientsStayUntilReset.1 n s t hc hr hrun
    rw [hanswer t ht, hA, hB]

/-- Settles O24 (R61). -/
theorem hashWordAbUsesItsOwnCoefficients : Obligations.HashWordAbUsesItsOwnCoefficients := by
  intro key a b s
  refine ⟨decode_eq_ok_iff (.hashWordAb key a b), fun hc => ?_, exec_hashWordAb_of_unconfigured key a b,
    exec_hashWordAb_paramA_paramB key s⟩
  rw [exec_hashWordAb_of_configured key a b hc, respond_eq_afterResponse]

end Sys2Proof.Machine
end

section
/-! SUPPORT, then the statement of R62: an engine that answers a queue of word-form hashes one by one. -/

namespace Sys2Proof.Machine

theorem framed_encode : ∀ i : Instr, framed (encode i) = true
  | .config a b => (Laws.EncodedFramed.config a b).1
  | .getA => Laws.EncodedFramed.getA.1
  | .getB => Laws.EncodedFramed.getB.1
  | .getDlen => Laws.EncodedFramed.getDlen.1
  | .hashWord key => (Laws.EncodedFramed.hashWord key).1
  | .hashWordAb key a b => (Laws.EncodedFramed.hashWordAb key a b).1
  | .hashBuf addr len => (Laws.EncodedFramed.hashBuf addr len).1
  | .hashFile h => (Laws.EncodedFramed.hashFile h).1
  | .hashKeyed kaddr klen maddr mlen => (Laws.EncodedFramed.hashKeyed kaddr klen maddr mlen).1

/-- A whole packet that decodes is taken and its command runs. -/
theorem engineTurn_of_decode_ok {s : State} {q : Queued} {rest : List Queued} {i : Instr} {tail : List Word}
    (hp : s.phase = .idle) (hq : s.queue = q :: rest) (hf : framed q.words = true)
    (hd : decode q.words = .ok (i, tail)) : engineTurn s = exec i (startPacket q rest s) := by
  simp [engineTurn, hp, hq, hf, hd]

/-- Where the packet of a command is at the head of the queue, the step runs that command. -/
theorem step_of_encoded {s : State} {host : Nat} {i : Instr} {raced : List Nat} {rest : List Queued}
    (hp : s.phase = .idle) (hm : engineMoves s) (hq : s.queue = ⟨host, encode i, raced⟩ :: rest) :
    step s = exec i (started s ⟨host, encode i, raced⟩ rest) := by
  have hd : decode (encode i) = .ok (i, []) := (decode_eq_ok_iff i _ _).mpr (List.append_nil _).symm
  rw [step_of_engineMoves hm]
  exact engineTurn_of_decode_ok hp hq (framed_encode i) hd

/-- The engine is IDLE and configured with a and b, and only the engine moves. -/
structure ReadyInstance (a b : Word) (s : State) : Prop where
  paramA : s.paramA = a
  paramB : s.paramB = b
  cfgValid : s.cfgValid = true
  idle : s.phase = .idle
  noInputs : s.inputs = []

/-- The command only answers (OK, v), wherever the block is configured with a and b. -/
def AnswersOk (a b : Word) (i : Instr) (v : Word) : Prop :=
  ∀ s : State, s.cfgValid = true → s.paramA = a → s.paramB = b → exec i s = .next (respond .ok v s)

theorem hashWord_answersOk (a b key : Word) : AnswersOk a b (.hashWord key) (mar a b key) := by
  rintro s hc rfl rfl
  exact exec_hashWord_of_configured key hc

/-- A and B do not matter to an override. -/
theorem hashWordAb_answersOk (a b key a' b' : Word) : AnswersOk a b (.hashWordAb key a' b') (mar a' b' key) :=
  fun _ hc _ _ => exec_hashWordAb_of_configured key a' b' hc

/-- One such command from the queue: one response, and the engine is as ready as before. -/
theorem step_of_answersOk {a b v : Word} {i : Instr} {host : Nat} {raced : List Nat} {rest : List Queued}
    {s : State} (hi : AnswersOk a b i v) (hs : ReadyInstance a b s)
    (hq : s.queue = ⟨host, encode i, raced⟩ :: rest) :
    ∃ t, step s = .next t ∧ ReadyInstance a b t ∧ t.queue = rest ∧
      t.responses = s.responses ++ [⟨host, .ok, v⟩] := by
  have hstep : step s = .next (respond .ok v (started s ⟨host, encode i, raced⟩ rest)) :=
    (step_of_encoded hs.idle (.inl hs.noInputs) hq).trans (hi _ hs.cfgValid hs.paramA hs.paramB)
  have hinputs : s.inputs.tail = [] := by rw [hs.noInputs, List.tail_nil]
  exact ⟨_, hstep, ⟨hs.paramA, hs.paramB, hs.cfgValid, rfl, hinputs⟩, rfl, rfl⟩

/-- A queue of such commands, each with its value, is answered in order. -/
theorem run_of_answersOk {a b : Word} {host : Nat} {cs : List (Instr × Word)}
    (hcs : ∀ c ∈ cs, AnswersOk a b c.1 c.2) {s : State} (hs : ReadyInstance a b s)
    (hq : s.queue = cs.map fun c => ⟨host, encode c.1, []⟩) :
    ∃ t, run cs.length s = .next t ∧
      t.responses = s.responses ++ cs.map fun c => ⟨host, .ok, c.2⟩ := by
  induction cs generalizing s with
  | nil => exact ⟨s, rfl, by simp⟩
  | cons c cs ih =>
    obtain ⟨hc, hrest⟩ := List.forall_mem_cons.mp hcs
    obtain ⟨u, hstep, hu, huq, hur⟩ := step_of_answersOk hc hs hq
    obtain ⟨t, hrun, ht⟩ := ih hrest hu huq
    exact ⟨t, (run_next cs.length hstep).trans hrun, by simp [ht, hur]⟩

/-- HASH_WORD key, the overrides, and HASH_WORD key again, each with the VALUE of R60 and R61. -/
def overrideSession (a b key : Word) (overrides : List (Word × Word × Word)) : List (Instr × Word) :=
  (.hashWord key, mar a b key) ::
    (overrides.map fun o => (.hashWordAb o.1 o.2.1 o.2.2, mar o.2.1 o.2.2 o.1)) ++
    [(.hashWord key, mar a b key)]

theorem overrideSession_answersOk (a b key : Word) (overrides : List (Word × Word × Word)) :
    ∀ c ∈ overrideSession a b key overrides, AnswersOk a b c.1 c.2 := by
  intro c hc
  simp only [overrideSession, List.cons_append, List.mem_cons, List.mem_append, List.mem_map,
    List.not_mem_nil, or_false] at hc
  rcases hc with rfl | ⟨o, -, rfl⟩ | rfl
  · exact hashWord_answersOk a b key
  · exact hashWordAb_answersOk a b _ _ _
  · exact hashWord_answersOk a b key

/-- Settles O25 (R62), by induction over the queue (`run_of_answersOk`). -/
theorem overrideIndependence : Obligations.OverrideIndependence := by
  intro s host key overrides hp hc hi hq
  have hs : ReadyInstance s.paramA s.paramB s := ⟨rfl, rfl, hc, hp, hi⟩
  obtain ⟨t, hrun, ht⟩ := run_of_answersOk (host := host)
    (overrideSession_answersOk s.paramA s.paramB key overrides) hs
    (by simpa [overrideSession, Function.comp_def] using hq)
  refine ⟨t, ?_, ?_⟩
  · simpa [overrideSession] using hrun
  · simpa [overrideSession, Function.comp_def] using ht

end Sys2Proof.Machine
end

section
/-! SUPPORT, then the statement of R64: Fold as a sum of chunks, and as a sum of weighted bytes. -/

namespace Sys2Proof.Machine

/-! ### Fold as the sum of the chunks (R63) -/

/-- The order of the additions does not matter: a wrapping sum from the left is the library's sum. -/
theorem sumWords_eq_add_sum (acc : Word) (ws : List Word) : sumWords acc ws = acc + ws.sum := by
  induction ws generalizing acc with
  | nil => simp
  | cons w ws ih => rw [sumWords_cons, ih, List.sum_cons, add_assoc]

theorem foldBytes_eq_sum (bs : List Byte) : foldBytes bs = (chunkWords bs).sum := by
  rw [foldBytes, sumWords_eq_add_sum, BitVec.zero_add]

theorem foldBytes_chunk (b0 b1 b2 b3 : Byte) (rest : List Byte) :
    foldBytes (b0 :: b1 :: b2 :: b3 :: rest) = le32 b0 b1 b2 b3 + foldBytes rest := by
  simp only [foldBytes_eq_sum, chunkWords, List.sum_cons]

theorem foldBytes_perm {x y : List Byte} (h : (chunkWords x).Perm (chunkWords y)) : foldBytes x = foldBytes y := by
  rw [foldBytes_eq_sum, foldBytes_eq_sum, h.sum_eq]

/-- Whole chunks in front stay as they are, and what follows them is cut as it is alone. -/
theorem foldBytes_append {x : List Byte} (hx : 4 ∣ x.length) (y : List Byte) :
    foldBytes (x ++ y) = foldBytes x + foldBytes y := by
  induction x using chunkWords.induct with
  | case1 => simp
  | case2 | case3 | case4 => simp at hx
  | case5 b0 b1 b2 b3 rest ih =>
    have hrest : 4 ∣ rest.length := by simpa using hx
    simp only [List.cons_append, foldBytes_chunk, ih hrest, add_assoc]

/-- Off a chunk boundary the second buffer's bytes change their weights: 0x0201 is not 1 + 2. -/
theorem foldBytes_append_unaligned : foldBytes ([1] ++ [2]) ≠ foldBytes [1] + foldBytes [2] := by decide

/-- One more zero byte is the padding of a partial chunk, or a chunk of its own that is 0. -/
theorem foldBytes_append_zero (bs : List Byte) : foldBytes (bs ++ [0#8]) = foldBytes bs := by
  induction bs using chunkWords.induct with
  | case1 => decide
  | case2 | case3 | case4 => rfl
  | case5 b0 b1 b2 b3 rest ih => simp only [List.cons_append, foldBytes_chunk, ih]

theorem foldBytes_append_zeros (bs : List Byte) (n : Nat) :
    foldBytes (bs ++ List.replicate n 0#8) = foldBytes bs := by
  induction n with
  | zero => simp
  | succ n ih => rw [List.replicate_succ', ← List.append_assoc, foldBytes_append_zero, ih]

/-! ### Fold as the sum of the weighted bytes -/

/-- The bytes as numbers, the first one at position p, each with the weight 2^(8 (position mod 4)) (R64). -/
def weightedSum (p : Nat) (bs : List Byte) : Nat :=
  ∑ i : Fin bs.length, bs[i].toNat * 2 ^ (8 * ((p + i.val) % 4))

theorem weightedSum_nil (p : Nat) : weightedSum p [] = 0 := rfl

theorem weightedSum_cons (p : Nat) (b : Byte) (bs : List Byte) :
    weightedSum p (b :: bs) = b.toNat * 2 ^ (8 * (p % 4)) + weightedSum (p + 1) bs := by
  have hpos : ∀ i, p + 1 + i = p + (i + 1) := by omega
  simp [weightedSum, Fin.sum_univ_succ, hpos]

/-- A byte's weight depends only on its position mod 4. -/
theorem weightedSum_add_four (p : Nat) (bs : List Byte) : weightedSum (p + 4) bs = weightedSum p bs := by
  have hweight : ∀ i, (p + 4 + i) % 4 = (p + i) % 4 := by omega
  simp only [weightedSum, hweight]

theorem weightedSum_chunk (b0 b1 b2 b3 : Byte) (rest : List Byte) :
    weightedSum 0 (b0 :: b1 :: b2 :: b3 :: rest) = (le32 b0 b1 b2 b3).toNat + weightedSum 0 rest := by
  have hrest : weightedSum (0 + 1 + 1 + 1 + 1) rest = weightedSum 0 rest := weightedSum_add_four 0 rest
  simp only [weightedSum_cons, hrest, le32_toNat, Nat.reduceAdd, Nat.reduceMod, Nat.reduceMul, Nat.reducePow]
  omega

theorem foldBytes_toNat (bs : List Byte) : (foldBytes bs).toNat = weightedSum 0 bs % 2 ^ 32 := by
  induction bs using chunkWords.induct with
  | case1 => rfl
  | case2 | case3 | case4 =>
    simp only [foldBytes_eq_sum, chunkWords, List.sum_singleton, le32_toNat, weightedSum_cons, weightedSum_nil,
      BitVec.ofNat_eq_ofNat, BitVec.toNat_zero, Nat.reduceAdd, Nat.reduceMod, Nat.reduceMul, Nat.reducePow]
    omega
  | case5 b0 b1 b2 b3 rest ih =>
    rw [foldBytes_chunk, BitVec.toNat_add, ih, weightedSum_chunk, Nat.add_mod_mod]

theorem weightedSum_zero (bs : List Byte) :
    weightedSum 0 bs = ∑ i : Fin bs.length, bs[i].toNat * 2 ^ (8 * (i.val % 4)) := by
  simp only [weightedSum, Nat.zero_add]

/-- Settles O22 (R64), a lemma for each law. -/
theorem foldLaws : Obligations.FoldLaws :=
  ⟨fun _ _ _ _ => fold_of_readBytes,
    fun bs => weightedSum_zero bs ▸ foldBytes_toNat bs,
    foldBytes_append_zeros,
    fun _ y hx => foldBytes_append hx y,
    ⟨[1], [2], by decide, foldBytes_append_unaligned⟩,
    fun _ _ => foldBytes_perm,
    foldBytes_nil⟩

end Sys2Proof.Machine
end

section
/-! SUPPORT, then the statement of R66: HASH_BUF past its checks, and an End that comes as a stream's answer. -/

namespace Sys2Proof.Machine

theorem exec_hashBuf_of_inRange {addr len : Word} {s : State} (hc : s.cfgValid = true)
    (hr : inRange addr len = true) :
    exec (.hashBuf addr len) s = .next (withFold addr len respondHash s) :=
  congrArg Host.Outcome.next ((whenConfigured_of_configured hc).trans (whenInRange_of_inRange hr))

/-- An empty buffer is folded without a read. -/
theorem withFold_zero (addr : Word) (k : Word → State → State) (s : State) :
    withFold addr 0#32 k s = k 0#32 s := rfl

theorem respondHash_eq_afterResponse (x : Word) (s : State) :
    respondHash x s = afterResponse s .ok (mar s.paramA s.paramB x) [] :=
  respond_eq_afterResponse .ok _ s

theorem exec_hashBuf_zero (addr : Word) {s : State} (hc : s.cfgValid = true) :
    exec (.hashBuf addr 0#32) s = .next (afterResponse s .ok (mar s.paramA s.paramB 0#32) []) := by
  have hr : inRange addr 0#32 = true := (inRange_iff addr 0#32).mpr addr.isLt.le
  rw [exec_hashBuf_of_inRange hc hr, withFold_zero, respondHash_eq_afterResponse]

/-- Where a HASH_FILE waits for an answer, the step takes it (R42, R69). -/
theorem step_of_answer {s : State} {c : FileRun} {a : StreamAnswer} {rest : List Input}
    (hp : s.phase = .busy c) (hi : s.inputs = .answer a :: rest) :
    step s = .next (takeAnswer c a { s with inputs := rest }) := by
  simp [step, hi, collaboratorAnswer, hp]

/-- End gives the hash of what was folded so far (R69). -/
theorem step_of_endOfStream {s : State} {c : FileRun} {rest : List Input}
    (hp : s.phase = .busy c) (hi : s.inputs = .answer .endOfStream :: rest) :
    step s = .next (afterResponse { s with inputs := rest } .ok (mar s.paramA s.paramB c.acc) []) := by
  rw [step_of_answer hp hi, takeAnswer, respondHash_eq_afterResponse]

/-- Settles O29 (R66): no byte and no word leave ACC at 0. -/
theorem emptyInputHashesToB : Obligations.EmptyInputHashesToB := by
  refine ⟨?_, sumWords_nil 0#32, fun addr _ => exec_hashBuf_zero addr,
    fun _ _ _ => step_of_endOfStream, mar_toNat_of_zero_key⟩
  rintro _ rfl
  exact foldBytes_nil

end Sys2Proof.Machine
end

section
/-! SUPPORT, then the statements of R72 to R75: the four parameter commands, each with CFG_VALID = 0 and with
CFG_VALID = 1, as whole next states. -/

namespace Sys2Proof.Machine

theorem exec_config_of_unconfigured (a b : Word) {s : State} (hc : s.cfgValid = false) :
    exec (.config a b) s =
      .next (afterResponse { s with paramA := a, paramB := b, cfgValid := true } .ok 0#32 []) :=
  (execConfig_of_unconfigured a b hc).trans (congrArg Host.Outcome.next (respond_eq_afterResponse ..))

theorem exec_config_of_configured (a b : Word) {s : State} (hc : s.cfgValid = true) :
    exec (.config a b) s = .next (afterResponse s .alreadyConfigured 0#32 []) :=
  (execConfig_of_configured a b hc).trans (congrArg Host.Outcome.next (respond_eq_afterResponse ..))

/-- A command that, once configured, reads one value out of the state and answers it. -/
theorem whenConfigured_respond_of_configured (value : State → Word) {s : State} (hc : s.cfgValid = true) :
    whenConfigured (fun s => respond .ok (value s) s) s = afterResponse s .ok (value s) [] := by
  rw [whenConfigured_of_configured hc, respond_eq_afterResponse]

theorem exec_getA_of_configured {s : State} (hc : s.cfgValid = true) :
    exec .getA s = .next (afterResponse s .ok s.paramA []) :=
  congrArg Host.Outcome.next (whenConfigured_respond_of_configured State.paramA hc)

theorem exec_getA_of_unconfigured {s : State} (hc : s.cfgValid = false) :
    exec .getA s = .next (afterResponse s .notConfigured 0#32 []) :=
  congrArg Host.Outcome.next (whenConfigured_of_unconfigured hc)

theorem exec_getB_of_configured {s : State} (hc : s.cfgValid = true) :
    exec .getB s = .next (afterResponse s .ok s.paramB []) :=
  congrArg Host.Outcome.next (whenConfigured_respond_of_configured State.paramB hc)

theorem exec_getB_of_unconfigured {s : State} (hc : s.cfgValid = false) :
    exec .getB s = .next (afterResponse s .notConfigured 0#32 []) :=
  congrArg Host.Outcome.next (whenConfigured_of_unconfigured hc)

/-- The digest length is DIGEST_BYTES, whatever CFG_VALID is. -/
theorem exec_getDlen (s : State) : exec .getDlen s = .next (afterResponse s .ok 4#32 []) :=
  congrArg Host.Outcome.next (respond_eq_afterResponse .ok (BitVec.ofNat 32 Config.digestBytes) s)

/-- Settles O12 (R72): the packet by `decode_eq_ok_iff`, the two cases by the outcomes of CONFIG. -/
theorem configOncePerReset : Obligations.ConfigOncePerReset := fun a b _ =>
  ⟨decode_eq_ok_iff (.config a b), exec_config_of_unconfigured a b, exec_config_of_configured a b⟩

/-- Settles O13 (R73): the packet by `decode_eq_ok_iff`, the two cases by the outcomes of GET_A. -/
theorem getAReturnsStoredA : Obligations.GetAReturnsStoredA := fun _ =>
  ⟨decode_eq_ok_iff .getA, exec_getA_of_configured, exec_getA_of_unconfigured⟩

/-- Settles O14 (R74): the packet by `decode_eq_ok_iff`, the two cases by the outcomes of GET_B. -/
theorem getBReturnsStoredB : Obligations.GetBReturnsStoredB := fun _ =>
  ⟨decode_eq_ok_iff .getB, exec_getB_of_configured, exec_getB_of_unconfigured⟩

/-- Settles O15 (R75): the outcome of GET_DLEN asks nothing of CFG_VALID. -/
theorem digestLengthIsFour : Obligations.DigestLengthIsFour := fun s =>
  ⟨decode_eq_ok_iff .getDlen, exec_getDlen s⟩

end Sys2Proof.Machine
end

section
/-! SUPPORT. What the reads of a buffer give, said exactly: the bytes seen and the state after them where all its bytes
are readable, and where the first unreadable one stops them (R31, R37, R41). -/

namespace Sys2Proof.Machine

/-- The state after reads that the ports carried as `events` and that drew `drawn` free bytes. -/
def afterReading (events : List PortEvent) (drawn : Nat) (s : State) : State :=
  { s with freeIndex := s.freeIndex + drawn, trace := s.trace ++ events }

@[simp] theorem afterReading_memory (es : List PortEvent) (n : Nat) (s : State) :
    (afterReading es n s).memory = s.memory := rfl
@[simp] theorem afterReading_current (es : List PortEvent) (n : Nat) (s : State) :
    (afterReading es n s).current = s.current := rfl
@[simp] theorem afterReading_freeIndex (es : List PortEvent) (n : Nat) (s : State) :
    (afterReading es n s).freeIndex = s.freeIndex + n := rfl

@[simp] theorem afterReading_nothing (s : State) : afterReading [] 0 s = s := by
  simp [afterReading]

theorem afterReading_afterReading (es₁ es₂ : List PortEvent) (n₁ n₂ : Nat) (s : State) :
    afterReading es₂ n₂ (afterReading es₁ n₁ s) = afterReading (es₁ ++ es₂) (n₁ + n₂) s := by
  simp [afterReading, Nat.add_assoc]

/-- The response after some reads, in the statements' words. -/
theorem respond_afterReading (status : Status) (value : Word) (es : List PortEvent) (n : Nat) (s : State) :
    respond status value (afterReading es n s) =
      afterResponse { s with freeIndex := s.freeIndex + n } status value es := rfl

theorem readEvents_zero (a : Nat) : readEvents a 0 = [] := rfl

theorem readEvents_succ (a n : Nat) : readEvents a (n + 1) = .memRead a :: readEvents (a + 1) n := by
  simp [readEvents, List.range_succ_eq_map, Nat.add_assoc, Nat.add_comm 1]

theorem drawnBytes_zero (raced : List Nat) (a : Nat) : drawnBytes raced a 0 = 0 := rfl

theorem drawnBytes_succ (raced : List Nat) (a n : Nat) :
    drawnBytes raced a (n + 1) = (if a ∈ raced then 1 else 0) + drawnBytes raced (a + 1) n := by
  have hnext : ∀ i, a + 1 + i = a + (i + 1) := by omega
  by_cases ha : a ∈ raced <;>
    simp [drawnBytes, List.range_succ_eq_map, List.filter_map, Function.comp_def, ha, hnext, Nat.add_comm 1]

theorem drawnBytes_le (raced : List Nat) (a n : Nat) : drawnBytes raced a n ≤ n := by
  simpa [drawnBytes] using List.length_filter_le (fun i => decide (a + i ∈ raced)) (List.range n)

/-! ### One read -/

/-- A readable byte is read as it is, or as the next free byte where it was raced. -/
theorem memRead_of_some {a : Nat} {b : Byte} {s : State} (hb : Memory.read s.memory a = some b) :
    memRead a s =
      (.value (if a ∈ s.current.raced then Config.racedByte s.freeIndex else b),
        afterReading [.memRead a] (if a ∈ s.current.raced then 1 else 0) s) := by
  by_cases ha : a ∈ s.current.raced <;> simp [memRead, hb, ha, logEvent, afterReading]

theorem memRead_of_none {a : Nat} {s : State} (hb : Memory.read s.memory a = none) :
    memRead a s = (.busError, afterReading [.memRead a] 0 s) := by
  simp [memRead, hb, logEvent, afterReading]

/-! ### The reads of a buffer -/

/-- Memory holds the bytes bs from a on: `holdsBytes` at an address that is a number. -/
def HoldsAt (m : Memory) (a : Nat) (bs : List Byte) : Prop :=
  ∀ i, ∀ h : i < bs.length, Memory.read m (a + i) = some bs[i]

theorem holdsAt_nil (m : Memory) (a : Nat) : HoldsAt m a [] := fun _ h => absurd h (Nat.not_lt_zero _)

theorem holdsAt_cons_iff {m : Memory} {a : Nat} {b : Byte} {bs : List Byte} :
    HoldsAt m a (b :: bs) ↔ Memory.read m a = some b ∧ HoldsAt m (a + 1) bs := by
  have hnext : ∀ i, a + 1 + i = a + (i + 1) := by omega
  constructor
  · intro h
    exact ⟨h 0 (by simp), fun i hi => by rw [hnext]; exact h (i + 1) (by simpa using hi)⟩
  · rintro ⟨hb, hbs⟩ (_ | i) hi
    · exact hb
    · rw [← hnext]
      exact hbs i (by simpa using hi)

/-- The byte at a + k is the first of those from a on that cannot be read. -/
def FirstUnreadable (m : Memory) (a k : Nat) : Prop :=
  (∀ i < k, Memory.read m (a + i) ≠ none) ∧ Memory.read m (a + k) = none

theorem firstUnreadable_succ_iff {m : Memory} {a k : Nat} :
    FirstUnreadable m a (k + 1) ↔ (∃ b, Memory.read m a = some b) ∧ FirstUnreadable m (a + 1) k := by
  have hnext : ∀ i, a + 1 + i = a + (i + 1) := by omega
  constructor
  · rintro ⟨hi, hk⟩
    refine ⟨Option.ne_none_iff_exists'.mp (hi 0 (by omega)), fun i hik => ?_, by rwa [hnext]⟩
    rw [hnext]
    exact hi (i + 1) (by omega)
  · rintro ⟨⟨b, hb⟩, hi, hk⟩
    refine ⟨fun i hik => ?_, by rwa [← hnext]⟩
    cases i with
    | zero => simp [hb]
    | succ i =>
      rw [← hnext]
      exact hi i (by omega)

/-- A buffer is readable as a whole, or one of its bytes is the first unreadable one. -/
theorem holdsAt_or_firstUnreadable (m : Memory) (n a : Nat) :
    (∃ bs, bs.length = n ∧ HoldsAt m a bs) ∨ ∃ k < n, FirstUnreadable m a k := by
  induction n generalizing a with
  | zero => exact .inl ⟨[], rfl, holdsAt_nil m a⟩
  | succ n ih =>
    cases hb : Memory.read m a with
    | none => exact .inr ⟨0, by omega, by simp, hb⟩
    | some b =>
      rcases ih (a + 1) with ⟨bs, hlen, hbs⟩ | ⟨k, hk, hu⟩
      · exact .inl ⟨b :: bs, by simp [hlen], holdsAt_cons_iff.mpr ⟨hb, hbs⟩⟩
      · exact .inr ⟨k + 1, by omega, firstUnreadable_succ_iff.mpr ⟨⟨b, hb⟩, hu⟩⟩

theorem seenBytes_cons (raced : List Nat) (k a : Nat) (b : Byte) (bs : List Byte) :
    seenBytes raced k a (b :: bs) =
      (if a ∈ raced then Config.racedByte k else b) ::
        seenBytes raced (k + if a ∈ raced then 1 else 0) (a + 1) bs := by
  by_cases ha : a ∈ raced <;> simp [seenBytes, ha]

/-- All bytes readable: each is read once, in order, and seen as `seenBytes` says. -/
theorem readBytes_of_holdsAt {a : Nat} {bs : List Byte} {s : State} (hb : HoldsAt s.memory a bs) :
    readBytes bs.length a s =
      (.value (seenBytes s.current.raced s.freeIndex a bs),
        afterReading (readEvents a bs.length) (drawnBytes s.current.raced a bs.length) s) := by
  induction bs generalizing a s with
  | nil => simp [readBytes, seenBytes, readEvents_zero, drawnBytes_zero]
  | cons b bs ih =>
    obtain ⟨hb, hbs⟩ := holdsAt_cons_iff.mp hb
    rw [List.length_cons, readBytes, memRead_of_some hb]
    dsimp only
    rw [ih (by simpa using hbs), afterReading_afterReading, readEvents_succ, drawnBytes_succ, seenBytes_cons]
    rfl

/-- The first unreadable byte ends the reads, its own included. -/
theorem readBytes_of_firstUnreadable {n a k : Nat} {s : State} (hk : k < n)
    (hu : FirstUnreadable s.memory a k) :
    readBytes n a s =
      (.busError, afterReading (readEvents a (k + 1)) (drawnBytes s.current.raced a k) s) := by
  induction k generalizing n a s with
  | zero =>
    obtain ⟨n, rfl⟩ := Nat.exists_eq_add_one_of_ne_zero (by omega : n ≠ 0)
    have hb : Memory.read s.memory a = none := hu.2
    rw [readBytes, memRead_of_none hb]
    rfl
  | succ k ih =>
    obtain ⟨n, rfl⟩ := Nat.exists_eq_add_one_of_ne_zero (by omega : n ≠ 0)
    obtain ⟨⟨b, hb⟩, hu⟩ := firstUnreadable_succ_iff.mp hu
    rw [readBytes, memRead_of_some hb]
    dsimp only
    rw [ih (by omega) (by simpa using hu), afterReading_afterReading, readEvents_succ a, drawnBytes_succ]
    rfl

theorem withFold_of_holds {addr len : Word} {bs : List Byte} {s : State} (k : Word → State → State)
    (hlen : bs.length = len.toNat) (hb : holdsBytes s addr bs) :
    withFold addr len k s =
      k (foldBytes (seenBytes s.current.raced s.freeIndex addr.toNat bs))
        (afterReading (readEvents addr.toNat len.toNat) (drawnBytes s.current.raced addr.toNat len.toNat) s) := by
  rw [withFold, fold, ← hlen, readBytes_of_holdsAt hb]

theorem withFold_of_firstUnreadable {addr len : Word} {n : Nat} {s : State} (k : Word → State → State)
    (hn : n < len.toNat) (hu : FirstUnreadable s.memory addr.toNat n) :
    withFold addr len k s =
      raiseStatus .busError
        (afterReading (readEvents addr.toNat (n + 1)) (drawnBytes s.current.raced addr.toNat n) s) := by
  rw [withFold, fold, readBytes_of_firstUnreadable hn hu]

end Sys2Proof.Machine
end

section
/-! SUPPORT, then the statements of R41, R68 and R70: HASH_BUF and HASH_KEYED in every case. -/

namespace Sys2Proof.Machine

/-! ### HASH_BUF -/

theorem exec_hashBuf_of_unconfigured (addr len : Word) {s : State} (hc : s.cfgValid = false) :
    exec (.hashBuf addr len) s = .next (afterResponse s .notConfigured 0#32 []) :=
  congrArg Host.Outcome.next (whenConfigured_of_unconfigured hc)

/-- A buffer that reaches past the top of memory is not in range (R36). -/
theorem inRange_eq_false_of_lt {addr len : Word} (h : 2 ^ 32 < addr.toNat + len.toNat) :
    inRange addr len = false := by
  rw [← Bool.not_eq_true, inRange_iff]
  omega

theorem exec_hashBuf_of_holds {addr len : Word} {bs : List Byte} {s : State} (hc : s.cfgValid = true)
    (hr : inRange addr len = true) (hlen : bs.length = len.toNat) (hb : holdsBytes s addr bs) :
    exec (.hashBuf addr len) s =
      .next (afterResponse
        { s with freeIndex := s.freeIndex + drawnBytes s.current.raced addr.toNat len.toNat } .ok
        (mar s.paramA s.paramB (foldBytes (seenBytes s.current.raced s.freeIndex addr.toNat bs)))
        (readEvents addr.toNat len.toNat)) := by
  rw [exec_hashBuf_of_inRange hc hr, withFold_of_holds _ hlen hb]
  rfl

theorem exec_hashBuf_of_firstUnreadable {addr len : Word} {k : Nat} {s : State} (hc : s.cfgValid = true)
    (hr : inRange addr len = true) (hk : k < len.toNat) (hu : FirstUnreadable s.memory addr.toNat k) :
    exec (.hashBuf addr len) s =
      .next (afterResponse
        { s with freeIndex := s.freeIndex + drawnBytes s.current.raced addr.toNat k } .busError 0#32
        (readEvents addr.toNat (k + 1))) := by
  rw [exec_hashBuf_of_inRange hc hr, withFold_of_firstUnreadable _ hk hu]
  rfl

/-- Settles O26 (R68): an outcome lemma for each case. -/
theorem hashBufHashesItsBuffer : Obligations.HashBufHashesItsBuffer := fun addr len _ =>
  ⟨decode_eq_ok_iff (.hashBuf addr len), exec_hashBuf_of_unconfigured addr len,
    fun hc hlt => exec_hashBuf_of_not_inRange hc (inRange_eq_false_of_lt hlt),
    fun hc hle _ hlen hb => exec_hashBuf_of_holds hc ((inRange_iff addr len).mpr hle) hlen hb,
    fun hc hle _ hk hlow hnone =>
      exec_hashBuf_of_firstUnreadable hc ((inRange_iff addr len).mpr hle) hk ⟨hlow, hnone⟩⟩

/-! ### The host's duty (R41) -/

theorem dutyKept_not_mem {s : State} {addr len : Word} (h : dutyKept s addr len) :
    ∀ i < len.toNat, addr.toNat + i ∉ s.current.raced := by
  intro i hi hm
  have := h _ hm
  omega

theorem seenBytes_of_not_raced {raced : List Nat} {k a : Nat} {bs : List Byte}
    (h : ∀ i < bs.length, a + i ∉ raced) : seenBytes raced k a bs = bs := by
  induction bs generalizing a with
  | nil => rfl
  | cons b bs ih =>
    have ha : a ∉ raced := h 0 (by simp)
    have hrest : ∀ i < bs.length, a + 1 + i ∉ raced := fun i hi => by
      rw [Nat.add_assoc, Nat.add_comm 1]
      exact h (i + 1) (by simpa using hi)
    simp [seenBytes, ha, ih hrest]

theorem drawnBytes_of_not_raced {raced : List Nat} {a n : Nat} (h : ∀ i < n, a + i ∉ raced) :
    drawnBytes raced a n = 0 := by
  simpa [drawnBytes] using h

/-- Settles O28 (R41): no byte of the buffer is raced, so none is seen as a free byte. -/
theorem hostDutyGivesMemoryBytes : Obligations.HostDutyGivesMemoryBytes := by
  intro addr len s bs hc hle hlen hb hd
  have hn : ∀ i < len.toNat, addr.toNat + i ∉ s.current.raced := dutyKept_not_mem hd
  rw [exec_hashBuf_of_holds hc ((inRange_iff addr len).mpr hle) hlen hb, drawnBytes_of_not_raced hn,
    seenBytes_of_not_raced (hlen ▸ hn)]
  rfl

/-! ### HASH_KEYED -/

theorem exec_hashKeyed_of_unconfigured (kaddr klen maddr mlen : Word) {s : State} (hc : s.cfgValid = false) :
    exec (.hashKeyed kaddr klen maddr mlen) s = .next (afterResponse s .notConfigured 0#32 []) :=
  congrArg Host.Outcome.next (whenConfigured_of_unconfigured hc)

theorem exec_hashKeyed_of_inRange {kaddr klen maddr mlen : Word} {s : State} (hc : s.cfgValid = true)
    (hk : inRange kaddr klen = true) (hm : inRange maddr mlen = true) :
    exec (.hashKeyed kaddr klen maddr mlen) s =
      .next (withFold kaddr klen
        (fun accKey => withFold maddr mlen fun accMsg => respondHash (accKey + accMsg)) s) :=
  congrArg Host.Outcome.next ((whenConfigured_of_configured hc).trans
    ((whenInRange_of_inRange hk).trans (whenInRange_of_inRange hm)))

section
variable {kaddr klen maddr mlen : Word} {s : State}

theorem exec_hashKeyed_of_firstUnreadable_key {k : Nat} (hc : s.cfgValid = true)
    (hkr : inRange kaddr klen = true) (hmr : inRange maddr mlen = true) (hk : k < klen.toNat)
    (hu : FirstUnreadable s.memory kaddr.toNat k) :
    exec (.hashKeyed kaddr klen maddr mlen) s =
      .next (afterResponse
        { s with freeIndex := s.freeIndex + drawnBytes s.current.raced kaddr.toNat k } .busError 0#32
        (readEvents kaddr.toNat (k + 1))) := by
  rw [exec_hashKeyed_of_inRange hc hkr hmr, withFold_of_firstUnreadable _ hk hu]
  rfl

theorem exec_hashKeyed_of_firstUnreadable_message {k : Nat} {kbs : List Byte} (hc : s.cfgValid = true)
    (hkr : inRange kaddr klen = true) (hmr : inRange maddr mlen = true) (hlen : kbs.length = klen.toNat)
    (hb : holdsBytes s kaddr kbs) (hk : k < mlen.toNat) (hu : FirstUnreadable s.memory maddr.toNat k) :
    exec (.hashKeyed kaddr klen maddr mlen) s =
      .next (afterResponse
        { s with freeIndex := s.freeIndex + drawnBytes s.current.raced kaddr.toNat klen.toNat +
            drawnBytes s.current.raced maddr.toNat k } .busError 0#32
        (readEvents kaddr.toNat klen.toNat ++ readEvents maddr.toNat (k + 1))) := by
  rw [exec_hashKeyed_of_inRange hc hkr hmr, withFold_of_holds _ hlen hb,
    withFold_of_firstUnreadable (s := afterReading _ _ s) _ hk hu,
    raiseStatus, afterReading_afterReading, respond_afterReading, Nat.add_assoc]
  rfl

theorem exec_hashKeyed_of_holds {kbs mbs : List Byte} (hc : s.cfgValid = true)
    (hkr : inRange kaddr klen = true) (hmr : inRange maddr mlen = true) (hklen : kbs.length = klen.toNat)
    (hkb : holdsBytes s kaddr kbs) (hmlen : mbs.length = mlen.toNat) (hmb : holdsBytes s maddr mbs) :
    exec (.hashKeyed kaddr klen maddr mlen) s =
      .next (afterResponse
        { s with freeIndex := s.freeIndex + drawnBytes s.current.raced kaddr.toNat klen.toNat +
            drawnBytes s.current.raced maddr.toNat mlen.toNat } .ok
        (mar s.paramA s.paramB
          (foldBytes (seenBytes s.current.raced s.freeIndex kaddr.toNat kbs) +
            foldBytes (seenBytes s.current.raced
              (s.freeIndex + drawnBytes s.current.raced kaddr.toNat klen.toNat) maddr.toNat mbs)))
        (readEvents kaddr.toNat klen.toNat ++ readEvents maddr.toNat mlen.toNat)) := by
  rw [exec_hashKeyed_of_inRange hc hkr hmr, withFold_of_holds _ hklen hkb,
    withFold_of_holds (s := afterReading _ _ s) _ hmlen hmb,
    respondHash, afterReading_afterReading, respond_afterReading, Nat.add_assoc]
  rfl

end

/-- Settles O30 (R70): an outcome lemma for each case. -/
theorem hashKeyedFoldsKeyThenMessage : Obligations.HashKeyedFoldsKeyThenMessage := by
  intro kaddr klen maddr mlen s
  refine ⟨decode_eq_ok_iff (.hashKeyed kaddr klen maddr mlen),
    exec_hashKeyed_of_unconfigured kaddr klen maddr mlen,
    fun hc hlt => exec_hashKeyed_of_not_inRange hc
      (hlt.imp inRange_eq_false_of_lt inRange_eq_false_of_lt),
    fun hc hkle hmle => ?_⟩
  have hkr := (inRange_iff kaddr klen).mpr hkle
  have hmr := (inRange_iff maddr mlen).mpr hmle
  refine ⟨fun k hk hlow hnone => ?_, fun kbs hklen hkb => ⟨fun k hk hlow hnone => ?_, fun mbs hmlen hmb => ?_⟩⟩
  · exact exec_hashKeyed_of_firstUnreadable_key hc hkr hmr hk ⟨hlow, hnone⟩
  · exact exec_hashKeyed_of_firstUnreadable_message hc hkr hmr hklen hkb hk ⟨hlow, hnone⟩
  · exact exec_hashKeyed_of_holds hc hkr hmr hklen hkb hmlen hmb

/-! ### Corner cases of HASH_KEYED (41_fold_hash.md section 4) -/

theorem inRange_zero (addr : Word) : inRange addr 0#32 = true := (inRange_iff addr 0#32).mpr addr.isLt.le

theorem exec_hashKeyed_empty_key (addr' addr len : Word) (s : State) :
    exec (.hashKeyed addr' 0#32 addr len) s = exec (.hashBuf addr len) s := by
  simp only [exec, execHashKeyed, execHashBuf, whenConfigured, whenInRange, inRange_zero, withFold_zero,
    BitVec.zero_add, if_true]

theorem exec_hashKeyed_empty_message (addr' addr len : Word) (s : State) :
    exec (.hashKeyed addr len addr' 0#32) s = exec (.hashBuf addr len) s := by
  have hmessage : (fun accKey => withFold addr' 0#32 fun accMsg => respondHash (accKey + accMsg)) = respondHash := by
    funext accKey u
    rw [withFold_zero, BitVec.add_zero]
  simp only [exec, execHashKeyed, execHashBuf, whenConfigured, whenInRange, inRange_zero, hmessage, if_true]

/-- Settles O31 (R70). -/
theorem emptyKeyOrMessageIsHashBuf : Obligations.EmptyKeyOrMessageIsHashBuf := fun addr addr' len s =>
  ⟨exec_hashKeyed_empty_key addr' addr len s, exec_hashKeyed_empty_message addr' addr len s⟩

/-- With both buffers readable and unraced, the response depends on the key and the message by their sum alone. -/
theorem exec_hashKeyed_responses {kaddr klen maddr mlen : Word} {s : State} {kbs mbs : List Byte}
    (hc : s.cfgValid = true) (hkr : inRange kaddr klen = true) (hmr : inRange maddr mlen = true)
    (hklen : kbs.length = klen.toNat) (hkb : holdsBytes s kaddr kbs) (hmlen : mbs.length = mlen.toNat)
    (hmb : holdsBytes s maddr mbs) (hkd : dutyKept s kaddr klen) (hmd : dutyKept s maddr mlen) :
    ∃ t, exec (.hashKeyed kaddr klen maddr mlen) s = .next t ∧
      t.responses = s.responses ++
        [⟨s.current.host, .ok, mar s.paramA s.paramB (foldBytes kbs + foldBytes mbs)⟩] := by
  refine ⟨_, exec_hashKeyed_of_holds hc hkr hmr hklen hkb hmlen hmb, ?_⟩
  rw [seenBytes_of_not_raced (hklen ▸ dutyKept_not_mem hkd), seenBytes_of_not_raced (hmlen ▸ dutyKept_not_mem hmd)]
  rfl

/-- Settles O32 (R70): the sum of the two folds commutes, and each refusal asks for both buffers alike. -/
theorem keyAndMessageCommute : Obligations.KeyAndMessageCommute := by
  intro kaddr klen maddr mlen s kbs mbs hklen hkb hmlen hmb hkd hmd
  cases hc : s.cfgValid with
  | false =>
    exact ⟨_, _, exec_hashKeyed_of_unconfigured kaddr klen maddr mlen hc,
      exec_hashKeyed_of_unconfigured maddr mlen kaddr klen hc, rfl⟩
  | true =>
    by_cases hr : inRange kaddr klen = true ∧ inRange maddr mlen = true
    · obtain ⟨hkr, hmr⟩ := hr
      obtain ⟨t, ht, htr⟩ := exec_hashKeyed_responses hc hkr hmr hklen hkb hmlen hmb hkd hmd
      obtain ⟨u, hu, hur⟩ := exec_hashKeyed_responses hc hmr hkr hmlen hmb hklen hkb hmd hkd
      exact ⟨t, u, ht, hu, by rw [htr, hur, add_comm (foldBytes kbs)]⟩
    · have hr' : inRange kaddr klen = false ∨ inRange maddr mlen = false := by
        simpa only [not_and_or, Bool.not_eq_true] using hr
      exact ⟨_, _, exec_hashKeyed_of_not_inRange hc hr', exec_hashKeyed_of_not_inRange hc hr'.symm, rfl⟩

end Sys2Proof.Machine
end

section
/-! SUPPORT, then the statements of R30, R37, R79, R80, R26 and R84 about a single command: the effect of a command as a
value that is fixed by what the command may look at. -/

namespace Sys2Proof.Machine

/-! ### Effects -/

/-- What a command does to the state. -/
inductive Effect where
  /-- some reads, which draw free bytes, and one response -/
  | answer (status : Status) (value : Word) (events : List PortEvent) (drawn : Nat)
  /-- A and B are stored and CFG_VALID is set, with the response (OK, 0) (R72) -/
  | create (a b : Word)
  /-- the stream is opened and asked for its first word (R69) -/
  | openFile (h : Word)

/-- The state after an effect. -/
def Effect.after : Effect → State → State
  | .answer status value events drawn, s =>
    afterResponse { s with freeIndex := s.freeIndex + drawn } status value events
  | .create a b, s => afterResponse { s with paramA := a, paramB := b, cfgValid := true } .ok 0#32 []
  | .openFile h, s =>
    { s with phase := .busy ⟨h, 0#32, 0⟩, trace := s.trace ++ [.streamOpen h, .streamNext] }

/-- The addresses of the bytes a command may read (R30). -/
def BufferOf (i : Instr) (a : Nat) : Prop :=
  (∃ addr len, i = .hashBuf addr len ∧ addr.toNat ≤ a ∧ a < addr.toNat + len.toNat) ∨
  (∃ k kl m ml, i = .hashKeyed k kl m ml ∧
    (k.toNat ≤ a ∧ a < k.toNat + kl.toNat ∨ m.toNat ≤ a ∧ a < m.toNat + ml.toNat))

/-- Which effects a command can have, by CFG_VALID. -/
def Effect.Fits (i : Instr) (configured : Bool) : Effect → Prop
  | .answer status value events drawn =>
    (∀ e ∈ events, ∃ a, e = .memRead a ∧ BufferOf i a) ∧ drawn ≤ events.length ∧
    (status ≠ .ok → value = 0#32) ∧ (status = .notConfigured ∨ status = .rangeError → events = [])
  | .create a b => i = .config a b
  | .openFile h => i = .hashFile h ∧ configured = true

/-- An answer without reads fits every command. -/
theorem Effect.fits_answer (i : Instr) (configured : Bool) {status : Status} {value : Word}
    (hv : status ≠ .ok → value = 0#32) : (Effect.answer status value [] 0).Fits i configured :=
  ⟨by simp, Nat.le_refl 0, hv, fun _ => rfl⟩

/-- The two states agree on everything a command may look at. -/
structure Alike (s s' : State) : Prop where
  paramA : s'.paramA = s.paramA
  paramB : s'.paramB = s.paramB
  cfgValid : s'.cfgValid = s.cfgValid
  memory : s'.memory = s.memory
  current : s'.current = s.current
  freeIndex : s'.freeIndex = s.freeIndex

theorem Alike.refl (s : State) : Alike s s := ⟨rfl, rfl, rfl, rfl, rfl, rfl⟩

theorem Alike.holdsBytes {s s' : State} (h : Alike s s') {addr : Word} {bs : List Byte}
    (hb : HoldsAt s.memory addr.toNat bs) : holdsBytes s' addr bs := by
  rw [← h.memory] at hb
  exact hb

theorem Alike.firstUnreadable {s s' : State} (h : Alike s s') {a k : Nat}
    (hu : FirstUnreadable s.memory a k) : FirstUnreadable s'.memory a k := h.memory ▸ hu

/-- Command i has effect e in s, and in every other state in which it sees the same. -/
structure HasEffect (i : Instr) (s : State) (e : Effect) : Prop where
  fits : e.Fits i s.cfgValid
  exec_eq : ∀ s', Alike s s' → exec i s' = .next (e.after s')

/-- A command that answers OK without a read. -/
theorem hasEffect_ok {i : Instr} {s : State} {value : Word}
    (h : ∀ s', Alike s s' → exec i s' = .next (afterResponse s' .ok value [])) :
    HasEffect i s (.answer .ok value [] 0) := ⟨Effect.fits_answer i _ (by simp), h⟩

/-- A command that raises a status without a read. -/
theorem hasEffect_raise {i : Instr} {s : State} {status : Status}
    (h : ∀ s', Alike s s' → exec i s' = .next (afterResponse s' status 0#32 [])) :
    HasEffect i s (.answer status 0#32 [] 0) := ⟨Effect.fits_answer i _ fun _ => rfl, h⟩

/-! ### The commands that only answer -/

/-- Every command but CONFIG and GET_DLEN checks CFG_VALID first (R79). -/
theorem exec_of_unconfigured {i : Instr} {s : State} (hc : s.cfgValid = false)
    (hconfig : ∀ a b, i ≠ .config a b) (hdlen : i ≠ .getDlen) :
    exec i s = .next (afterResponse s .notConfigured 0#32 []) := by
  cases i with
  | config a b => exact absurd rfl (hconfig a b)
  | getDlen => exact absurd rfl hdlen
  | getA => exact exec_getA_of_unconfigured hc
  | getB => exact exec_getB_of_unconfigured hc
  | hashWord key => exact exec_hashWord_of_unconfigured key hc
  | hashWordAb key a b => exact exec_hashWordAb_of_unconfigured key a b hc
  | hashBuf addr len => exact exec_hashBuf_of_unconfigured addr len hc
  | hashFile h => exact congrArg Host.Outcome.next (whenConfigured_of_unconfigured hc)
  | hashKeyed kaddr klen maddr mlen => exact exec_hashKeyed_of_unconfigured kaddr klen maddr mlen hc

/-- Settles O40 (R79). -/
theorem unconfiguredCommandsAnswerSo : Obligations.UnconfiguredCommandsAnswerSo :=
  fun _ _ hc hconfig hdlen => exec_of_unconfigured hc hconfig hdlen

/-- Settles O41 (R80): raise is respond with VALUE 0. -/
theorem raiseEndsTheCommand : Obligations.RaiseEndsTheCommand :=
  fun status s => respond_eq_afterResponse status 0#32 s

/-- A HASH_FILE of a configured block opens its stream and waits (R69). -/
theorem exec_hashFile_of_configured (h : Word) {s : State} (hc : s.cfgValid = true) :
    exec (.hashFile h) s =
      .next { s with phase := .busy ⟨h, 0#32, 0⟩, trace := s.trace ++ [.streamOpen h, .streamNext] } := by
  refine (congrArg Host.Outcome.next (whenConfigured_of_configured hc)).trans ?_
  simp [streamNext, streamOpen, logEvent]

/-! ### The commands that read -/

theorem forall_mem_readEvents {P : Nat → Prop} {a n : Nat} (h : ∀ i < n, P (a + i)) :
    ∀ e ∈ readEvents a n, ∃ x, e = .memRead x ∧ P x := by
  intro e he
  obtain ⟨i, hi, rfl⟩ := List.mem_map.mp he
  exact ⟨a + i, rfl, h i (List.mem_range.mp hi)⟩

theorem drawnBytes_le_readEvents (raced : List Nat) (a : Nat) {k n : Nat} (hk : k ≤ n) :
    drawnBytes raced a k ≤ (readEvents a n).length := by
  have hlen : (readEvents a n).length = n := by simp [readEvents]
  rw [hlen]
  exact (drawnBytes_le raced a k).trans hk

/-- A hash after its reads fits a command whose buffers hold these reads. -/
theorem Effect.fits_hash {i : Instr} {configured : Bool} {value : Word} {events : List PortEvent} {drawn : Nat}
    (he : ∀ e ∈ events, ∃ a, e = .memRead a ∧ BufferOf i a) (hd : drawn ≤ events.length) :
    (Effect.answer .ok value events drawn).Fits i configured := ⟨he, hd, by simp, by simp⟩

/-- So does BUS_ERROR. -/
theorem Effect.fits_busError {i : Instr} {configured : Bool} {events : List PortEvent} {drawn : Nat}
    (he : ∀ e ∈ events, ∃ a, e = .memRead a ∧ BufferOf i a) (hd : drawn ≤ events.length) :
    (Effect.answer .busError 0#32 events drawn).Fits i configured := ⟨he, hd, by simp, by simp⟩

theorem hashBuf_hasEffect_of_inRange {addr len : Word} {s : State} (hc : s.cfgValid = true)
    (hr : inRange addr len = true) : ∃ e, HasEffect (.hashBuf addr len) s e := by
  have hreads : ∀ n ≤ len.toNat, ∀ e ∈ readEvents addr.toNat n,
      ∃ a, e = .memRead a ∧ BufferOf (.hashBuf addr len) a := fun n hn =>
    forall_mem_readEvents fun i hi => .inl ⟨addr, len, rfl, by omega, by omega⟩
  rcases holdsAt_or_firstUnreadable s.memory len.toNat addr.toNat with ⟨bs, hlen, hb⟩ | ⟨k, hk, hu⟩
  · refine ⟨.answer .ok (mar s.paramA s.paramB (foldBytes (seenBytes s.current.raced s.freeIndex addr.toNat bs)))
      (readEvents addr.toNat len.toNat) (drawnBytes s.current.raced addr.toNat len.toNat),
      Effect.fits_hash (hreads _ le_rfl) (drawnBytes_le_readEvents _ _ le_rfl), fun s' hs => ?_⟩
    rw [exec_hashBuf_of_holds (hs.cfgValid.trans hc) hr hlen (hs.holdsBytes hb), ← hs.paramA, ← hs.paramB,
      ← hs.current, ← hs.freeIndex]
    rfl
  · refine ⟨.answer .busError 0#32 (readEvents addr.toNat (k + 1)) (drawnBytes s.current.raced addr.toNat k),
      Effect.fits_busError (hreads _ hk) (drawnBytes_le_readEvents _ _ k.le_succ), fun s' hs => ?_⟩
    rw [exec_hashBuf_of_firstUnreadable (hs.cfgValid.trans hc) hr hk (hs.firstUnreadable hu), ← hs.current]
    rfl

theorem hashKeyed_hasEffect_of_inRange {kaddr klen maddr mlen : Word} {s : State} (hc : s.cfgValid = true)
    (hkr : inRange kaddr klen = true) (hmr : inRange maddr mlen = true) :
    ∃ e, HasEffect (.hashKeyed kaddr klen maddr mlen) s e := by
  have hkey : ∀ n ≤ klen.toNat, ∀ e ∈ readEvents kaddr.toNat n,
      ∃ a, e = .memRead a ∧ BufferOf (.hashKeyed kaddr klen maddr mlen) a := fun n hn =>
    forall_mem_readEvents fun i hi => .inr ⟨kaddr, klen, maddr, mlen, rfl, by omega⟩
  have hboth : ∀ n ≤ mlen.toNat, ∀ e ∈ readEvents kaddr.toNat klen.toNat ++ readEvents maddr.toNat n,
      ∃ a, e = .memRead a ∧ BufferOf (.hashKeyed kaddr klen maddr mlen) a := fun n hn =>
    List.forall_mem_append.mpr ⟨hkey _ le_rfl,
      forall_mem_readEvents fun i hi => .inr ⟨kaddr, klen, maddr, mlen, rfl, by omega⟩⟩
  have hdrawn : ∀ k n, k ≤ n →
      drawnBytes s.current.raced kaddr.toNat klen.toNat + drawnBytes s.current.raced maddr.toNat k ≤
        (readEvents kaddr.toNat klen.toNat ++ readEvents maddr.toNat n).length := fun k n hk => by
    rw [List.length_append]
    exact Nat.add_le_add (drawnBytes_le_readEvents _ _ le_rfl) (drawnBytes_le_readEvents _ _ hk)
  rcases holdsAt_or_firstUnreadable s.memory klen.toNat kaddr.toNat with ⟨kbs, hklen, hkb⟩ | ⟨k, hk, hu⟩
  · rcases holdsAt_or_firstUnreadable s.memory mlen.toNat maddr.toNat with ⟨mbs, hmlen, hmb⟩ | ⟨k, hk, hu⟩
    · refine ⟨.answer .ok
        (mar s.paramA s.paramB (foldBytes (seenBytes s.current.raced s.freeIndex kaddr.toNat kbs) +
          foldBytes (seenBytes s.current.raced
            (s.freeIndex + drawnBytes s.current.raced kaddr.toNat klen.toNat) maddr.toNat mbs))) _ _,
        Effect.fits_hash (hboth _ le_rfl) (hdrawn _ _ le_rfl), fun s' hs => ?_⟩
      rw [exec_hashKeyed_of_holds (hs.cfgValid.trans hc) hkr hmr hklen (hs.holdsBytes hkb) hmlen
        (hs.holdsBytes hmb), ← hs.paramA, ← hs.paramB, ← hs.current, ← hs.freeIndex, Nat.add_assoc]
      rfl
    · refine ⟨.answer .busError 0#32 _ _, Effect.fits_busError (hboth _ hk) (hdrawn _ _ k.le_succ),
        fun s' hs => ?_⟩
      rw [exec_hashKeyed_of_firstUnreadable_message (hs.cfgValid.trans hc) hkr hmr hklen (hs.holdsBytes hkb) hk
        (hs.firstUnreadable hu), ← hs.current, Nat.add_assoc]
      rfl
  · refine ⟨.answer .busError 0#32 _ _,
      Effect.fits_busError (hkey _ hk) (drawnBytes_le_readEvents s.current.raced _ k.le_succ), fun s' hs => ?_⟩
    rw [exec_hashKeyed_of_firstUnreadable_key (hs.cfgValid.trans hc) hkr hmr hk (hs.firstUnreadable hu),
      ← hs.current]
    rfl

/-- Every command has one effect, which is fixed by A, B, CFG_VALID, the memory, the running command's ticket and the
count of free bytes. -/
theorem exists_hasEffect (i : Instr) (s : State) : ∃ e, HasEffect i s e := by
  cases hc : s.cfgValid with
  | false =>
    have hc' : ∀ s', Alike s s' → s'.cfgValid = false := fun _ hs => hs.cfgValid.trans hc
    by_cases hconfig : ∃ a b, i = .config a b
    · obtain ⟨a, b, rfl⟩ := hconfig
      exact ⟨.create a b, rfl, fun s' hs => exec_config_of_unconfigured a b (hc' s' hs)⟩
    · by_cases hdlen : i = .getDlen
      · exact ⟨_, hasEffect_ok fun s' _ => hdlen ▸ exec_getDlen s'⟩
      · exact ⟨_, hasEffect_raise fun s' hs =>
          exec_of_unconfigured (hc' s' hs) (fun a b h => hconfig ⟨a, b, h⟩) hdlen⟩
  | true =>
    have hc' : ∀ s', Alike s s' → s'.cfgValid = true := fun _ hs => hs.cfgValid.trans hc
    cases i with
    | config a b =>
      exact ⟨_, hasEffect_raise fun s' hs => exec_config_of_configured a b (hc' s' hs)⟩
    | getA =>
      exact ⟨_, hasEffect_ok fun s' hs =>
        hs.paramA ▸ exec_getA_of_configured (hc' s' hs)⟩
    | getB =>
      exact ⟨_, hasEffect_ok fun s' hs =>
        hs.paramB ▸ exec_getB_of_configured (hc' s' hs)⟩
    | getDlen => exact ⟨_, hasEffect_ok fun s' _ => exec_getDlen s'⟩
    | hashWord key =>
      refine ⟨_, hasEffect_ok (value := mar s.paramA s.paramB key) fun s' hs => ?_⟩
      rw [exec_hashWord_of_configured key (hc' s' hs), respond_eq_afterResponse, hs.paramA, hs.paramB]
    | hashWordAb key a b =>
      refine ⟨_, hasEffect_ok (value := mar a b key) fun s' hs => ?_⟩
      rw [exec_hashWordAb_of_configured key a b (hc' s' hs), respond_eq_afterResponse]
    | hashFile h =>
      exact ⟨.openFile h, ⟨rfl, hc⟩, fun s' hs => exec_hashFile_of_configured h (hc' s' hs)⟩
    | hashBuf addr len =>
      cases hr : inRange addr len with
      | true => exact hashBuf_hasEffect_of_inRange hc hr
      | false =>
        exact ⟨_, hasEffect_raise fun s' hs => exec_hashBuf_of_not_inRange (hc' s' hs) hr⟩
    | hashKeyed kaddr klen maddr mlen =>
      by_cases hr : inRange kaddr klen = true ∧ inRange maddr mlen = true
      · exact hashKeyed_hasEffect_of_inRange hc hr.1 hr.2
      · have hr' : inRange kaddr klen = false ∨ inRange maddr mlen = false := by
          simpa only [not_and_or, Bool.not_eq_true] using hr
        exact ⟨_, hasEffect_raise fun s' hs => exec_hashKeyed_of_not_inRange (hc' s' hs) hr'⟩

/-- What exec gives is the state after an effect that fits the command. -/
theorem exec_effect (i : Instr) (s : State) : ∃ e : Effect, e.Fits i s.cfgValid ∧ exec i s = .next (e.after s) := by
  obtain ⟨e, he⟩ := exists_hasEffect i s
  exact ⟨e, he.fits, he.exec_eq s (.refl s)⟩

/-! ### What an effect leaves unchanged -/

section
variable (e : Effect) (s : State)

@[simp] theorem Effect.after_memory : (e.after s).memory = s.memory := by cases e <;> rfl
@[simp] theorem Effect.after_queue : (e.after s).queue = s.queue := by cases e <;> rfl
@[simp] theorem Effect.after_inputs : (e.after s).inputs = s.inputs := by cases e <;> rfl
@[simp] theorem Effect.after_arriving : (e.after s).arriving = s.arriving := by cases e <;> rfl

end

/-- Only CONFIG writes A, B and CFG_VALID. -/
theorem Effect.after_coefficients {i : Instr} {s : State} {e : Effect} (he : e.Fits i s.cfgValid)
    (hi : ∀ a b, i ≠ .config a b) :
    (e.after s).paramA = s.paramA ∧ (e.after s).paramB = s.paramB ∧ (e.after s).cfgValid = s.cfgValid := by
  cases e with
  | answer | openFile => exact ⟨rfl, rfl, rfl⟩
  | create a b => exact absurd he (hi a b)

/-- A command that may read nothing draws no free byte. -/
theorem Effect.after_freeIndex {i : Instr} {s : State} {e : Effect} (he : e.Fits i s.cfgValid)
    (hi : ∀ a, ¬ BufferOf i a) : (e.after s).freeIndex = s.freeIndex := by
  cases e with
  | create | openFile => rfl
  | answer status value events drawn =>
    obtain ⟨hev, hd, -, -⟩ := he
    have hnone : events = [] := List.eq_nil_iff_forall_not_mem.mpr fun ev hm => by
      obtain ⟨a, -, ha⟩ := hev ev hm
      exact hi a ha
    subst hnone
    obtain rfl : drawn = 0 := Nat.le_zero.mp hd
    rfl

/-- The command ended with one response, VALUE 0 unless OK, or a HASH_FILE is BUSY. -/
theorem Effect.after_phase {i : Instr} {s : State} {e : Effect} (he : e.Fits i s.cfgValid) :
    ((e.after s).phase = .idle ∧ (e.after s).current = ⟨0, []⟩ ∧ ∃ status value,
      (e.after s).responses = s.responses ++ [⟨s.current.host, status, value⟩] ∧ (status ≠ .ok → value = 0#32)) ∨
    ((∃ h, i = .hashFile h ∧ (e.after s).phase = .busy ⟨h, 0#32, 0⟩) ∧ (e.after s).current = s.current ∧
      (e.after s).responses = s.responses) := by
  cases e with
  | answer status value events drawn =>
    obtain ⟨-, -, hv, -⟩ := he
    exact .inl ⟨rfl, rfl, status, value, rfl, hv⟩
  | create a b => exact .inl ⟨rfl, rfl, .ok, 0#32, rfl, fun _ => rfl⟩
  | openFile h => exact .inr ⟨⟨h, he.1, rfl⟩, rfl, rfl⟩

/-- Settles O37: the frame of every effect. -/
theorem commandFrames : Obligations.CommandFrames := by
  intro i s t ht
  obtain ⟨e, he, hexec⟩ := exec_effect i s
  obtain rfl : e.after s = t := by simpa [hexec] using ht
  refine ⟨fun a => by rw [e.after_memory], e.after_queue s, e.after_inputs s, e.after_arriving s,
    Effect.after_coefficients he, fun hbuf hkeyed => Effect.after_freeIndex he fun a ha => ?_,
    Effect.after_phase he⟩
  rcases ha with ⟨addr, len, hi, -⟩ | ⟨k, kl, m, ml, hi, -⟩
  · exact hbuf addr len hi
  · exact hkeyed k kl m ml hi

/-! ### The reads of an effect -/

/-- The port events of an effect: reads, and then the response or the requests to the stream. -/
def Effect.portEvents (host : Nat) : Effect → List PortEvent
  | .answer status value events _ => events ++ [.response ⟨host, status, value⟩]
  | .create _ _ => [.response ⟨host, .ok, 0#32⟩]
  | .openFile h => [.streamOpen h, .streamNext]

theorem Effect.after_trace (e : Effect) (s : State) :
    (e.after s).trace = s.trace ++ e.portEvents s.current.host := by
  cases e <;> simp [Effect.after, Effect.portEvents, afterResponse]

theorem Effect.mem_buffer_of_memRead {i : Instr} {configured : Bool} {e : Effect} (he : e.Fits i configured)
    {host a : Nat} (ha : .memRead a ∈ e.portEvents host) : BufferOf i a := by
  cases e with
  | create | openFile => simp [Effect.portEvents] at ha
  | answer status value events drawn =>
    obtain ⟨hev, -, -, -⟩ := he
    obtain ⟨a', ha', hbuf⟩ := hev (.memRead a) (by simpa [Effect.portEvents] using ha)
    cases ha'
    exact hbuf

/-- NOT_CONFIGURED and RANGE_ERROR come before any read (R67). -/
theorem Effect.no_memRead_of_refusal {i : Instr} {configured : Bool} {e : Effect} (he : e.Fits i configured)
    {host : Nat} {status : Status} (hs : status = .notConfigured ∨ status = .rangeError)
    (hr : .response ⟨host, status, 0#32⟩ ∈ e.portEvents host) (a : Nat) : .memRead a ∉ e.portEvents host := by
  cases e with
  | create | openFile => simp [Effect.portEvents]
  | answer status' value events drawn =>
    obtain ⟨hev, -, -, hnone⟩ := he
    have hstatus : status = status' := by
      rcases List.mem_append.mp hr with hm | hm
      · obtain ⟨x, hx, -⟩ := hev _ hm
        cases hx
      · cases List.mem_singleton.mp hm
        rfl
    simp [Effect.portEvents, hnone (hstatus ▸ hs)]

/-- Settles O39 (R30, R37): the port events of every effect. -/
theorem readsStayInsideBuffers : Obligations.ReadsStayInsideBuffers := by
  intro i s t ht
  obtain ⟨e, he, hexec⟩ := exec_effect i s
  obtain rfl : e.after s = t := by simpa [hexec] using ht
  exact ⟨_, e.after_trace s, fun _ => Effect.mem_buffer_of_memRead he,
    fun _ hs hr => Effect.no_memRead_of_refusal he hs hr⟩

/-! ### Outcomes depend on what a command may look at (R26, R84) -/

/-- The responses an effect adds. -/
def Effect.newResponses (host : Nat) : Effect → List Response
  | .answer status value _ _ => [⟨host, status, value⟩]
  | .create _ _ => [⟨host, .ok, 0#32⟩]
  | .openFile _ => []

theorem Effect.after_responses (e : Effect) (s : State) :
    (e.after s).responses = s.responses ++ e.newResponses s.current.host := by
  cases e <;> simp [Effect.after, Effect.newResponses, afterResponse]

/-- What an answer of the stream adds is fixed by A, B, the host to answer and what the file has given so far. -/
theorem takeAnswer_outcome (c : FileRun) (a : StreamAnswer) (A B : Word) (host : Nat) :
    ∃ new events phase, ∀ s : State, s.paramA = A → s.paramB = B → s.current.host = host →
      (takeAnswer c a s).responses = s.responses ++ new ∧ (takeAnswer c a s).trace = s.trace ++ events ∧
      (takeAnswer c a s).phase = phase := by
  cases a with
  | word w =>
    exact ⟨[], [.streamNext], .busy ⟨c.handle, c.acc + w, c.taken + 1⟩, fun s _ _ _ =>
      ⟨(List.append_nil _).symm, rfl, rfl⟩⟩
  | endOfStream =>
    refine ⟨[⟨host, .ok, mar A B c.acc⟩], [.response ⟨host, .ok, mar A B c.acc⟩], .idle, ?_⟩
    rintro s rfl rfl rfl
    exact ⟨rfl, rfl, rfl⟩
  | error =>
    refine ⟨[⟨host, .ioError, 0#32⟩], [.response ⟨host, .ioError, 0#32⟩], .idle, ?_⟩
    rintro s - - rfl
    exact ⟨rfl, rfl, rfl⟩

/-- Settles O44 (R26, R84): a command has one effect in both states, an answer of the stream one outcome. -/
theorem outcomeDependsOnlyOnItsInputs : Obligations.OutcomeDependsOnlyOnItsInputs := by
  refine ⟨fun i s₁ s₂ t₁ t₂ hA hB hc hm hcur hf h₁ h₂ => ?_,
    fun a c rest₁ rest₂ s₁ s₂ hp₁ hp₂ hi₁ hi₂ hA hB hcur => ?_⟩
  · obtain ⟨e, he⟩ := exists_hasEffect i s₁
    obtain rfl : e.after s₁ = t₁ := by simpa [he.exec_eq s₁ (.refl s₁)] using h₁
    obtain rfl : e.after s₂ = t₂ := by
      simpa [he.exec_eq s₂ ⟨hA.symm, hB.symm, hc.symm, hm.symm, hcur.symm, hf.symm⟩] using h₂
    refine ⟨e.newResponses s₁.current.host, e.portEvents s₁.current.host, e.after_responses s₁,
      hcur ▸ e.after_responses s₂, e.after_trace s₁, hcur ▸ e.after_trace s₂, ?_⟩
    cases e with
    | answer | openFile => exact ⟨hA, hB, hc, rfl⟩
    | create => exact ⟨rfl, rfl, rfl, rfl⟩
  · obtain ⟨new, events, phase, h⟩ := takeAnswer_outcome c a s₁.paramA s₁.paramB s₁.current.host
    obtain ⟨hr₁, ht₁, hph₁⟩ := h { s₁ with inputs := rest₁ } rfl rfl rfl
    obtain ⟨hr₂, ht₂, hph₂⟩ := h { s₂ with inputs := rest₂ } hA.symm hB.symm (by rw [hcur])
    have hk₁ := takeAnswer_keepsInstance c a { s₁ with inputs := rest₁ }
    have hk₂ := takeAnswer_keepsInstance c a { s₂ with inputs := rest₂ }
    exact ⟨_, _, new, events, step_of_answer hp₁ hi₁, step_of_answer hp₂ hi₂, hr₁, hr₂, ht₁, ht₂,
      hk₁.paramA.trans (hA.trans hk₂.paramA.symm), hk₁.paramB.trans (hB.trans hk₂.paramB.symm),
      hph₁.trans hph₂.symm, hk₁.cfgValid, hk₂.cfgValid⟩

end Sys2Proof.Machine
end

section
/-! SUPPORT, then the statements of R51, R54 and R57 as words: the decoder against the encoder, the words of a response,
and the packets of the text form. -/

namespace Sys2Proof.Machine

/-- Settles O1 (R48 to R52): the encoder's words are all that decodes to a command. -/
theorem decodeIffEncoded : Obligations.DecodeIffEncoded := decode_eq_ok_iff

/-- Settles O4 (R51, R52): each packet evaluates, accepted or refused by its header. -/
theorem samplePacketsDecode : Obligations.SamplePacketsDecode := ⟨rfl, rfl, rfl, rfl, rfl, rfl⟩

theorem asmPacket_eq_packet {ws ps : List Word} (h : asmPacket ws = .packet ps) : framed ps = true := by
  unfold asmPacket at h
  split at h
  case isTrue hf =>
    cases h
    exact hf
  case isFalse => cases h

/-- A line gives a packet only through `asmPacket`, be it a .raw line or a command. -/
theorem assembleLine_eq_packet {line : List Char} {ws : List Word} (h : assembleLine line = .packet ws) :
    ∃ ps, asmPacket ps = .packet ws := by
  simp only [assembleLine] at h
  split at h
  · cases h
  · split at h
    · cases h
    case h_2 ops _ =>
      split at h
      · exact ⟨ops, h⟩
      · split at h
        · cases h
        case h_2 header _ => exact ⟨header :: ops, h⟩

/-- Settles O6 (R57). -/
theorem assembledPacketsAreWhole : Obligations.AssembledPacketsAreWhole := fun _ _ h =>
  (assembleLine_eq_packet h).elim fun _ => asmPacket_eq_packet

/-- No command produces a reserved code (R78). -/
theorem statusCode_toNat_le (status : Status) : (statusCode status).toNat ≤ 6 := by
  cases status <;> decide

/-- The STATUS word holds the code alone. -/
theorem statusWord_toNat (status : Status) :
    (0#28 ++ statusCode status : Word).toNat = (statusCode status).toNat := by
  rw [toNat_append_eq_add]
  simp

/-- Settles O42 (R54, R78). -/
theorem responseWordsCarryStatus : Obligations.ResponseWordsCarryStatus :=
  ⟨fun r => ⟨_, rfl, statusWord_toNat r.status, (statusWord_toNat r.status).trans_le (statusCode_toNat_le r.status)⟩,
    rfl⟩

end Sys2Proof.Machine
end

section
/-! SUPPORT. The step at each kind of input, and what a host's action leaves unchanged. -/

namespace Sys2Proof.Machine

section
variable {s : State} {rest : List Input}

theorem step_of_word {host : Nat} {w : Word} (hi : s.inputs = .word host w :: rest) :
    step s = .next (acceptWord host w { s with inputs := rest }) := by simp [step, hi]

theorem step_of_write {addr : Word} {b : Byte} (hi : s.inputs = .write addr b :: rest) :
    step s = .next (hostWrite addr b { s with inputs := rest }) := by simp [step, hi]

theorem step_of_take {host : Nat} (hi : s.inputs = .take host :: rest) :
    step s = .next (takeResponse host { s with inputs := rest }) := by simp [step, hi]

theorem step_of_reset (hi : s.inputs = .reset :: rest) :
    step s = .next (resetInput { s with inputs := rest }) := by simp [step, hi]

end

/-- What a host's word, write or taken response leaves unchanged: the engine's own state and the order of the packets
sent before; the ports carry delivered responses at most. -/
structure HostAction (s t : State) : Prop where
  paramA : t.paramA = s.paramA
  paramB : t.paramB = s.paramB
  cfgValid : t.cfgValid = s.cfgValid
  phase : t.phase = s.phase
  current : t.current = s.current
  inputs : t.inputs = s.inputs
  queue : s.queue.map (fun q => q.words) <+: t.queue.map (fun q => q.words)
  trace : ∃ extra, t.trace = s.trace ++ extra ∧ ∀ e ∈ extra, ∃ r, e = .delivered r

theorem HostAction.refl (s : State) : HostAction s s :=
  ⟨rfl, rfl, rfl, rfl, rfl, rfl, List.prefix_rfl, [], by simp⟩

theorem acceptWord_hostAction (host : Nat) (w : Word) (s : State) : HostAction s (acceptWord host w s) := by
  have hnothing : ∃ extra : List PortEvent, s.trace = s.trace ++ extra ∧ ∀ e ∈ extra, ∃ r, e = .delivered r :=
    ⟨[], by simp⟩
  rcases acceptWord_cases host w s with ⟨-, -, h⟩ | ⟨-, -, h⟩ | ⟨-, -, h⟩ <;> rw [h]
  · exact .refl s
  · exact ⟨rfl, rfl, rfl, rfl, rfl, rfl, by simp, hnothing⟩
  · exact ⟨rfl, rfl, rfl, rfl, rfl, rfl, List.prefix_rfl, hnothing⟩

theorem hostWrite_hostAction (addr : Word) (b : Byte) (s : State) : HostAction s (hostWrite addr b s) :=
  ⟨rfl, rfl, rfl, rfl, rfl, rfl, by simp [Function.comp_def, Queued.race], [], by simp⟩

theorem takeResponse_hostAction (host : Nat) (s : State) : HostAction s (takeResponse host s) := by
  rcases takeResponse_cases host s with ⟨-, h⟩ | ⟨before, r, after, -, -, -, h⟩ <;> rw [h]
  · exact .refl s
  · exact ⟨rfl, rfl, rfl, rfl, rfl, rfl, List.prefix_rfl, [.delivered r], rfl, by simp⟩

/-! ### The data memory -/

@[simp] theorem acceptWord_memory (host : Nat) (w : Word) (s : State) :
    (acceptWord host w s).memory = s.memory := by
  rcases acceptWord_cases host w s with ⟨-, -, h⟩ | ⟨-, -, h⟩ | ⟨-, -, h⟩ <;> rw [h]

@[simp] theorem takeResponse_memory (host : Nat) (s : State) : (takeResponse host s).memory = s.memory := by
  rcases takeResponse_cases host s with ⟨-, h⟩ | ⟨before, r, after, -, -, -, h⟩ <;> rw [h]

@[simp] theorem takeAnswer_memory (c : FileRun) (a : StreamAnswer) (s : State) :
    (takeAnswer c a s).memory = s.memory := by cases a <;> rfl

@[simp] theorem collaboratorAnswer_memory (a : StreamAnswer) (s : State) :
    (collaboratorAnswer a s).memory = s.memory := by
  rcases collaboratorAnswer_cases a s with ⟨-, h⟩ | ⟨c, -, h⟩ <;> rw [h]
  exact takeAnswer_memory c a s

theorem engineTurn_memory {s t : State} (h : engineTurn s = .next t) : t.memory = s.memory := by
  rcases engineTurn_cases s with
    ⟨-, hu⟩ | ⟨q, rest, -, -, -, hu⟩ | ⟨q, rest, e, -, -, -, -, hu⟩ | ⟨q, rest, i, tail, -, -, -, -, hu⟩
  all_goals rw [hu] at h
  · cases h
    rfl
  · cases h
  · cases h
    rfl
  · obtain ⟨e, -, he⟩ := exec_effect i (startPacket q rest s)
    cases he.symm.trans h
    exact e.after_memory _

/-- Settles O38 (R35): every operation but `hostWrite` keeps the memory. -/
theorem engineWritesNoMemory : Obligations.EngineWritesNoMemory := by
  intro s t h hw
  rcases step_cases s with
    ⟨-, hu⟩ | ⟨rest, -, hu⟩ | ⟨host, w, rest, -, hu⟩ | ⟨addr, b, rest, hi, -⟩ | ⟨host, rest, -, hu⟩ |
    ⟨a, rest, -, hu⟩ | ⟨rest, -, hu⟩
  case inr.inr.inr.inl => exact absurd hi (hw addr b rest)
  all_goals rw [hu] at h
  · exact engineTurn_memory h
  · exact engineTurn_memory (s := { s with inputs := rest }) h
  all_goals cases h
  · exact acceptWord_memory ..
  · exact takeResponse_memory ..
  · exact collaboratorAnswer_memory ..
  · rfl

/-- Settles O48 (R29, R41): the memory by its read-after-write laws, the marks by `Queued.race` and `Arriving.race`. -/
theorem hostWriteChangesOneByte : Obligations.HostWriteChangesOneByte := by
  intro s addr b rest hi
  exact ⟨_, step_of_write hi, Memory.read_write_same .., fun a ha => Memory.read_write_other _ _ _ _ ha, rfl,
    fun hw => if_neg hw, fun hw => if_pos hw, rfl, rfl, rfl, rfl, rfl, rfl⟩

theorem foldl_memRead_onlyRead (others : List Nat) (s : State) :
    OnlyRead s (others.foldl (fun u b => (memRead b u).2) s) := by
  induction others generalizing s with
  | nil => exact .refl s
  | cons b others ih => exact (memRead_onlyRead b s).trans (ih _)

theorem OnlyRead.memory {s t : State} (h : OnlyRead s t) : t.memory = s.memory := by rw [h.rest]

/-- Reading gives the byte in memory where it was not raced, however much was read before. -/
theorem OnlyRead.memRead_fst {s t : State} (h : OnlyRead s t) {a : Nat} (ha : a ∉ s.current.raced) :
    (memRead a t).1 = (memRead a s).1 := by
  have hm := h.memory
  have hc : t.current = s.current := by rw [h.rest]
  have ha' : a ∉ t.current.raced := hc ▸ ha
  cases hb : Memory.read s.memory a with
  | none => rw [memRead_of_none hb, memRead_of_none (hm ▸ hb)]
  | some b => rw [memRead_of_some hb, memRead_of_some (hm ▸ hb), if_neg ha, if_neg ha']

/-- Settles O49 (R39): reads change neither the memory nor what was raced. -/
theorem readsAreRepeatable : Obligations.ReadsAreRepeatable := fun a others s ha =>
  ⟨((memRead_onlyRead a s).trans (foldl_memRead_onlyRead others _)).memRead_fst ha,
    (foldl_memRead_onlyRead others s).memory⟩

/-! ### Reset and responses -/

/-- Settles O46 (R27). -/
theorem resetState : Obligations.ResetState := ⟨rfl, rfl, rfl, rfl⟩

/-- Settles O47 (R94, R95): the fields of `resetInput`. -/
theorem resetAbandonsEverything : Obligations.ResetAbandonsEverything := fun _ _ hi =>
  ⟨_, step_of_reset hi, rfl, rfl, rfl, rfl, rfl, rfl, rfl, rfl, rfl, rfl, rfl⟩

theorem takeResponse_of_oldest {host : Nat} {s : State} {before after : List Response} {r : Response}
    (hs : s.responses = before ++ r :: after) (hr : r.host = host) (hb : ∀ x ∈ before, x.host ≠ host) :
    takeResponse host s = { s with responses := before ++ after, trace := s.trace ++ [.delivered r] } := by
  have hfind : s.responses.find? (fun r => r.host == host) = some r :=
    List.find?_eq_some_iff_append.mpr ⟨by simp [hr], before, after, hs, by simpa using hb⟩
  have herase : s.responses.eraseP (fun r => r.host == host) = before ++ after := by
    rw [hs, List.eraseP_append_right _ (by simpa using hb)]
    simp [hr]
  simp [takeResponse, hfind, herase]

theorem takeResponse_of_none {host : Nat} {s : State} (h : ∀ r ∈ s.responses, r.host ≠ host) :
    takeResponse host s = s := by
  have hfind : s.responses.find? (fun r => r.host == host) = none := by simpa using h
  simp [takeResponse, hfind]

/-- Settles O50 (R23). -/
theorem hostTakesItsOldestResponse : Obligations.HostTakesItsOldestResponse := by
  intro s host rest hi
  rw [step_of_take hi]
  exact ⟨fun before r after hs hr hb =>
      congrArg Host.Outcome.next (takeResponse_of_oldest (s := { s with inputs := rest }) hs hr hb),
    fun h => congrArg Host.Outcome.next (takeResponse_of_none (s := { s with inputs := rest }) h)⟩

end Sys2Proof.Machine
end

section
/-! SUPPORT, then the statements of R48, R53 and R99: the words of a packet on the command port. -/

namespace Sys2Proof.Machine

theorem notYetWhole_cons_iff (h : Word) (ops : List Word) :
    notYetWhole (h :: ops) ↔ (h :: ops).length < packetLength h := Iff.rfl

theorem framed_cons_iff_length (h : Word) (ops : List Word) :
    framed (h :: ops) = true ↔ (h :: ops).length = packetLength h := beq_iff_eq

/-- Less than a packet is not a whole one. -/
theorem framed_eq_false_of_notYetWhole {ws : List Word} (h : notYetWhole ws) : framed ws = false := by
  cases ws with
  | nil => rfl
  | cons header ops =>
    rw [← Bool.not_eq_true, framed_cons_iff_length]
    exact Nat.ne_of_lt h

/-- The words in front of the last one of a packet, whole or cut short, are less than a packet. -/
theorem notYetWhole_of_append_cons {ws more : List Word} {w : Word}
    (h : framed (ws ++ w :: more) = true ∨ notYetWhole (ws ++ w :: more)) : notYetWhole ws := by
  cases ws with
  | nil => trivial
  | cons header ops =>
    rw [List.cons_append, framed_cons_iff_length, notYetWhole_cons_iff, List.length_cons, List.length_append,
      List.length_cons] at h
    rw [notYetWhole_cons_iff, List.length_cons]
    omega

/-- One more word that does not complete the packet leaves less than a packet. -/
theorem notYetWhole_append_word {ws : List Word} {w : Word} (h : notYetWhole ws)
    (hf : framed (ws ++ [w]) = false) : notYetWhole (ws ++ [w]) := by
  cases ws with
  | nil =>
    have hne : ([w] : List Word).length ≠ packetLength w := fun he => by
      simp [(framed_cons_iff_length w []).mpr he] at hf
    rw [List.nil_append, notYetWhole_cons_iff]
    simp only [packetLength, List.length_singleton] at hne ⊢
    omega
  | cons header ops =>
    rw [List.cons_append, ← Bool.not_eq_true, framed_cons_iff_length] at hf
    rw [notYetWhole_cons_iff] at h
    rw [List.cons_append, notYetWhole_cons_iff]
    simp only [List.length_append, List.length_cons, List.length_nil] at h hf ⊢
    omega

section
variable {host : Nat} {w : Word} {rest : List Input} {s : State}

/-- A word that completes the packet brings it into the queue. -/
theorem step_of_last_word (hfree : s.arriving.words = [] ∨ s.arriving.host = host)
    (hf : framed (s.arriving.words ++ [w]) = true) (hi : s.inputs = .word host w :: rest) :
    step s =
      .next { s with queue := s.queue ++ [⟨host, s.arriving.words ++ [w], s.arriving.raced⟩],
                     arriving := ⟨0, [], []⟩, inputs := rest } := by
  have htransferred : ¬ (s.arriving.words ≠ [] ∧ s.arriving.host ≠ host) := by tauto
  rw [step_of_word hi, acceptWord, if_neg htransferred, if_pos hf]

/-- A word that does not complete it is kept on the port. -/
theorem step_of_part_word (hfree : s.arriving.words = [] ∨ s.arriving.host = host)
    (hpart : notYetWhole (s.arriving.words ++ [w])) (hi : s.inputs = .word host w :: rest) :
    step s =
      .next { s with arriving := ⟨host, s.arriving.words ++ [w], s.arriving.raced⟩, inputs := rest } := by
  have htransferred : ¬ (s.arriving.words ≠ [] ∧ s.arriving.host ≠ host) := by tauto
  have hf : ¬ framed (s.arriving.words ++ [w]) = true := by simp [framed_eq_false_of_notYetWhole hpart]
  rw [step_of_word hi, acceptWord, if_neg htransferred, if_neg hf]

end

/-- The remaining words of a packet that becomes whole: it enters the queue with its last word. -/
theorem run_sendPacket_of_framed {host : Nat} {p : List Word} {rest : List Input} {s : State}
    (hfree : s.arriving.words = [] ∨ s.arriving.host = host) (hpart : notYetWhole s.arriving.words)
    (hf : framed (s.arriving.words ++ p) = true) (hi : s.inputs = sendPacket host p ++ rest) :
    run p.length s =
      .next { s with queue := s.queue ++ [⟨host, s.arriving.words ++ p, s.arriving.raced⟩],
                     arriving := ⟨0, [], []⟩, inputs := rest } := by
  induction p generalizing s with
  | nil => simp [framed_eq_false_of_notYetWhole hpart] at hf
  | cons w p ih =>
    cases p with
    | nil => exact run_next 0 (step_of_last_word hfree hf hi)
    | cons w' p =>
      have hpart' : notYetWhole (s.arriving.words ++ [w]) :=
        notYetWhole_of_append_cons (more := p) (.inl (by simpa using hf))
      rw [List.length_cons, run_next _ (step_of_part_word hfree hpart' hi),
        ih (.inr rfl) hpart' (by simpa using hf) rfl]
      simp

/-- The next words of a packet that is cut short stay on the port. -/
theorem run_sendPacket_of_notYetWhole {host : Nat} {w : Word} {p : List Word} {rest : List Input} {s : State}
    (hfree : s.arriving.words = [] ∨ s.arriving.host = host) (hpart : notYetWhole (s.arriving.words ++ w :: p))
    (hi : s.inputs = sendPacket host (w :: p) ++ rest) :
    run (w :: p).length s =
      .next { s with arriving := ⟨host, s.arriving.words ++ w :: p, s.arriving.raced⟩, inputs := rest } := by
  induction p generalizing s w with
  | nil => exact run_next 0 (step_of_part_word hfree hpart hi)
  | cons w' p ih =>
    have hpart' : notYetWhole (s.arriving.words ++ [w]) :=
      notYetWhole_of_append_cons (more := p) (.inr (by simpa using hpart))
    rw [List.length_cons, run_next _ (step_of_part_word hfree hpart' hi),
      ih (.inr rfl) (by simpa using hpart) rfl]
    simp

/-- Settles O5 (R48, R53, R99): whole and cut-short packets by induction over their words; a word of another host is not
transferred. -/
theorem packetEntersQueueWhole : Obligations.PacketEntersQueueWhole := by
  refine ⟨fun s host p rest hf hw hr hi => ?_, fun s host p rest hne hpart hw hr hi => ?_,
    fun s host w rest hw hh hi => ?_⟩
  · rw [run_sendPacket_of_framed (.inl hw) (by rw [hw]; trivial) (by rwa [hw]) hi, hw, hr]
    rfl
  · obtain ⟨w, p, rfl⟩ := List.exists_cons_of_ne_nil hne
    rw [run_sendPacket_of_notYetWhole (.inl hw) (by rwa [hw]) hi, hw, hr]
    rfl
  · rw [step_of_word hi]
    exact congrArg Host.Outcome.next (if_pos ⟨hw, hh⟩)

end Sys2Proof.Machine
end

section
/-! SUPPORT, then the statements of R52, R77, R93 and of the invariant: each operation keeps `Inv`, so each step
does. -/

namespace Sys2Proof.Machine

section
variable {s : State}

theorem Inv.withInputs (h : Inv s) (rest : List Input) : Inv { s with inputs := rest } :=
  ⟨h.memory_wf, h.queue_framed, h.arriving_part, h.busy_configured, h.error_value_zero, h.arriving_free⟩

/-- A response leaves the engine IDLE. -/
theorem Inv.afterResponse (h : Inv s) {status : Status} {value : Word} (events : List PortEvent)
    (hv : status ≠ .ok → value = 0#32) : Inv (afterResponse s status value events) where
  memory_wf := h.memory_wf
  queue_framed := h.queue_framed
  arriving_part := h.arriving_part
  busy_configured hp := absurd rfl hp
  error_value_zero := List.forall_mem_append.mpr ⟨h.error_value_zero, List.forall_mem_singleton.mpr hv⟩
  arriving_free := h.arriving_free

/-- A file is opened or read on only with CFG_VALID = 1. -/
theorem Inv.withPhase (h : Inv s) (hc : s.cfgValid = true) (p : Phase) (es : List PortEvent) :
    Inv { s with phase := p, trace := es } :=
  ⟨h.memory_wf, h.queue_framed, h.arriving_part, fun _ => hc, h.error_value_zero, h.arriving_free⟩

theorem Inv.afterEffect (h : Inv s) {i : Instr} {e : Effect} (he : e.Fits i s.cfgValid) : Inv (e.after s) := by
  cases e with
  | answer status value events drawn =>
    obtain ⟨-, -, hv, -⟩ := he
    have hs : Inv { s with freeIndex := s.freeIndex + drawn } :=
      ⟨h.memory_wf, h.queue_framed, h.arriving_part, h.busy_configured, h.error_value_zero, h.arriving_free⟩
    exact hs.afterResponse events hv
  | create a b =>
    have hs : Inv { s with paramA := a, paramB := b, cfgValid := true } :=
      ⟨h.memory_wf, h.queue_framed, h.arriving_part, fun _ => rfl, h.error_value_zero, h.arriving_free⟩
    exact hs.afterResponse [] fun _ => rfl
  | openFile f => exact h.withPhase he.2 _ _

theorem Inv.raiseStatus (h : Inv s) (status : Status) : Inv (raiseStatus status s) := by
  rw [Machine.raiseStatus, respond_eq_afterResponse]
  exact h.afterResponse [] fun _ => rfl

theorem Inv.startPacket (h : Inv s) {q : Queued} {rest : List Queued} (hq : s.queue = q :: rest) :
    Inv (startPacket q rest s) where
  memory_wf := h.memory_wf
  queue_framed q' hq' := h.queue_framed q' (hq ▸ List.mem_cons_of_mem q hq')
  arriving_part := h.arriving_part
  busy_configured := h.busy_configured
  error_value_zero := h.error_value_zero
  arriving_free := h.arriving_free

/-- With the invariant the engine has a next state, which has it too: the head of the queue is a whole packet. -/
theorem Inv.engineTurn (h : Inv s) : ∃ t, engineTurn s = .next t ∧ Inv t := by
  rcases engineTurn_cases s with
    ⟨-, hu⟩ | ⟨q, rest, -, hq, hf, -⟩ | ⟨q, rest, e, -, hq, -, -, hu⟩ | ⟨q, rest, i, tail, -, hq, -, -, hu⟩
  · exact ⟨s, hu, h⟩
  · have hframed : framed q.words = true := h.queue_framed q (by simp [hq])
    simp [hf] at hframed
  · exact ⟨_, hu, (h.startPacket hq).raiseStatus _⟩
  · obtain ⟨e, he, hexec⟩ := exec_effect i (Machine.startPacket q rest s)
    exact ⟨_, hu.trans hexec, (h.startPacket hq).afterEffect he⟩

theorem Inv.acceptWord (h : Inv s) (host : Nat) (w : Word) : Inv (acceptWord host w s) := by
  rcases acceptWord_cases host w s with ⟨-, -, hu⟩ | ⟨-, hf, hu⟩ | ⟨-, hf, hu⟩ <;> rw [hu]
  · exact h
  · exact
      { memory_wf := h.memory_wf
        queue_framed := List.forall_mem_append.mpr ⟨h.queue_framed, List.forall_mem_singleton.mpr hf⟩
        arriving_part := trivial
        busy_configured := h.busy_configured
        error_value_zero := h.error_value_zero
        arriving_free := fun _ => rfl }
  · exact
      { memory_wf := h.memory_wf
        queue_framed := h.queue_framed
        arriving_part := notYetWhole_append_word h.arriving_part hf
        busy_configured := h.busy_configured
        error_value_zero := h.error_value_zero
        arriving_free := fun hnil => by simp at hnil }

@[simp] theorem Arriving.race_words (a : Nat) (p : Arriving) : (p.race a).words = p.words := by
  unfold Arriving.race
  split <;> rfl

theorem Inv.hostWrite (h : Inv s) (addr : Word) (b : Byte) : Inv (hostWrite addr b s) where
  memory_wf := Memory.write_wf h.memory_wf addr.isLt
  queue_framed := List.forall_mem_map.mpr h.queue_framed
  arriving_part := by simpa using h.arriving_part
  busy_configured := h.busy_configured
  error_value_zero := h.error_value_zero
  arriving_free hnil := by
    have hw : s.arriving.words = [] := by simpa using hnil
    simpa [Arriving.race, hw] using h.arriving_free hw

theorem Inv.takeResponse (h : Inv s) (host : Nat) : Inv (takeResponse host s) := by
  rcases takeResponse_cases host s with ⟨-, hu⟩ | ⟨before, r, after, hs, -, -, hu⟩ <;> rw [hu]
  · exact h
  · exact
      { memory_wf := h.memory_wf
        queue_framed := h.queue_framed
        arriving_part := h.arriving_part
        busy_configured := h.busy_configured
        error_value_zero := fun x hx => h.error_value_zero x (by
          rw [hs]
          exact List.mem_append.mpr ((List.mem_append.mp hx).imp_right (List.mem_cons_of_mem r)))
        arriving_free := h.arriving_free }

theorem Inv.collaboratorAnswer (h : Inv s) (a : StreamAnswer) : Inv (collaboratorAnswer a s) := by
  rcases collaboratorAnswer_cases a s with ⟨-, hu⟩ | ⟨c, hp, hu⟩ <;> rw [hu]
  · exact h
  · have hc : s.cfgValid = true := h.busy_configured (by simp [hp])
    rcases takeAnswer_cases c a s with ⟨w, -, hu⟩ | ⟨-, hu⟩ | ⟨-, hu⟩ <;> rw [hu]
    · exact h.withPhase hc _ _
    · rw [respondHash_eq_afterResponse]
      exact h.afterResponse [] (by simp)
    · exact h.raiseStatus _

theorem Inv.reset : Inv State.reset :=
  ⟨Memory.reset_wf, by simp [State.reset], trivial, fun hp => absurd rfl hp, by simp [State.reset], fun _ => rfl⟩

theorem Inv.resetInput (h : Inv s) : Inv (resetInput s) :=
  ⟨h.memory_wf, Inv.reset.queue_framed, trivial, fun hp => absurd rfl hp, Inv.reset.error_value_zero, fun _ => rfl⟩

/-- With the invariant every step has a next state, which has it too. -/
theorem Inv.step (h : Inv s) : ∃ t, step s = .next t ∧ Inv t := by
  rcases step_cases s with
    ⟨-, hu⟩ | ⟨rest, -, hu⟩ | ⟨host, w, rest, -, hu⟩ | ⟨addr, b, rest, -, hu⟩ | ⟨host, rest, -, hu⟩ |
    ⟨a, rest, -, hu⟩ | ⟨rest, -, hu⟩
  · exact hu ▸ h.engineTurn
  · exact hu ▸ (h.withInputs rest).engineTurn
  · exact ⟨_, hu, (h.withInputs rest).acceptWord host w⟩
  · exact ⟨_, hu, (h.withInputs rest).hostWrite addr b⟩
  · exact ⟨_, hu, (h.withInputs rest).takeResponse host⟩
  · exact ⟨_, hu, (h.withInputs rest).collaboratorAnswer a⟩
  · exact ⟨_, hu, (h.withInputs rest).resetInput⟩

end

/-- Settles O8, by the kind of input (`Inv.step`). -/
theorem stepKeepsInvariant : Obligations.StepKeepsInvariant := by
  intro s t h ht
  obtain ⟨u, hu, hinv⟩ := h.step
  cases hu.symm.trans ht
  exact hinv

/-- Settles O9. -/
theorem resetHasInvariant : Obligations.ResetHasInvariant := Inv.reset

/-- Settles O10 (R77): the one fault asks for a queue head that the invariant shuts out. -/
theorem engineNeverStops : Obligations.EngineNeverStops := fun _ h =>
  h.step.imp fun _ => And.left

/-! ### The engine's turn -/

/-- Settles O7 (R22, R52). -/
theorem stepRunsDecodedCommand : Obligations.StepRunsDecodedCommand := by
  intro s q rest i tail hp hm hq hf hd _
  rw [step_of_engineMoves hm]
  exact engineTurn_of_decode_ok hp hq hf hd

/-- A BUSY engine waits for its collaborator (R101), an IDLE one for a packet (R93). -/
theorem engineTurn_of_waiting {s : State} (hw : s.phase ≠ .idle ∨ s.queue = []) : engineTurn s = .next s := by
  rcases hw with hp | hq
  · cases hph : s.phase with
    | idle => exact absurd hph hp
    | busy c => simp [engineTurn, hph]
  · cases hph : s.phase <;> simp [engineTurn, hph, hq]

/-- Where the engine waits, a step that is no reset and brings it no answer is at most a host's action. -/
theorem step_of_waiting {s : State} (hw : s.phase ≠ .idle ∨ s.queue = [])
    (hr : ∀ rest, s.inputs ≠ .reset :: rest) (ha : ∀ a rest, s.inputs = .answer a :: rest → s.phase = .idle) :
    ∃ t, step s = .next t ∧ HostAction { s with inputs := s.inputs.tail } t := by
  rcases step_cases s with
    ⟨hi, hu⟩ | ⟨rest, hi, hu⟩ | ⟨host, w, rest, hi, hu⟩ | ⟨addr, b, rest, hi, hu⟩ | ⟨host, rest, hi, hu⟩ |
    ⟨a, rest, hi, hu⟩ | ⟨rest, hi, -⟩
  case inr.inr.inr.inr.inr.inr => exact absurd hi (hr rest)
  · exact ⟨_, step_of_engineMoves (.inl hi) |>.trans (engineTurn_of_waiting hw), .refl _⟩
  · exact ⟨_, step_of_engineMoves (.inr ⟨rest, hi⟩) |>.trans (engineTurn_of_waiting hw), .refl _⟩
  all_goals refine ⟨_, hu, ?_⟩; rw [hi, List.tail_cons]
  · exact acceptWord_hostAction ..
  · exact hostWrite_hostAction ..
  · exact takeResponse_hostAction ..
  · have hp : s.phase = .idle := ha a rest hi
    rcases collaboratorAnswer_cases a { s with inputs := rest } with ⟨-, h⟩ | ⟨c, hc, -⟩
    · rw [h]
      exact .refl _
    · cases hp.symm.trans hc

/-- Settles O11 (R93). -/
theorem idleEngineDoesNothing : Obligations.IdleEngineDoesNothing := by
  intro s hp hq
  refine ⟨fun hm => ?_, fun t h hr => ?_⟩
  · rw [step_of_engineMoves hm]
    exact engineTurn_of_waiting (.inr hq)
  · obtain ⟨u, hu, hact⟩ := step_of_waiting (.inr hq) hr fun _ _ _ => hp
    cases hu.symm.trans h
    exact ⟨hact.paramA, hact.paramB, hact.cfgValid, hact.phase.trans hp⟩

end Sys2Proof.Machine
end

section
/-! SUPPORT, then the statements of R42, R43, R65, R69 and R101: HASH_FILE from the opening of its stream to its
response, and the answers of a file. -/

namespace Sys2Proof.Machine

/-- Two runs one after the other are one run. -/
theorem run_add {s t : State} {m : Nat} (n : Nat) (h : run m s = .next t) : run (m + n) s = run n t := by
  induction m generalizing s with
  | zero =>
    cases h
    rw [Nat.zero_add]
  | succ m ih =>
    obtain ⟨u, hu, hrun⟩ := run_succ_cases h
    rw [Nat.succ_add, run_next _ hu, ih hrun]

/-! ### One answer -/

/-- A Word is added to ACC and the next one is asked for (R69). -/
theorem step_of_streamWord {s : State} {c : FileRun} {w : Word} {rest : List Input}
    (hp : s.phase = .busy c) (hi : s.inputs = .answer (.word w) :: rest) :
    step s =
      .next { s with phase := .busy ⟨c.handle, c.acc + w, c.taken + 1⟩, inputs := rest,
                     trace := s.trace ++ [.streamNext] } := step_of_answer hp hi

/-- Error gives IO_ERROR, whatever was folded before (R69). -/
theorem step_of_streamError {s : State} {c : FileRun} {rest : List Input}
    (hp : s.phase = .busy c) (hi : s.inputs = .answer .error :: rest) :
    step s = .next (afterResponse { s with inputs := rest } .ioError 0#32 []) := by
  rw [step_of_answer hp hi, takeAnswer, raiseStatus, respond_eq_afterResponse]

/-! ### A whole stream -/

/-- A run of Words: their sum is added to ACC, and each is followed by the request for the next one. -/
theorem run_streamWords {h acc : Word} {k : Nat} {ws : List Word} {rest : List Input} {s : State}
    (hp : s.phase = .busy ⟨h, acc, k⟩) (hi : s.inputs = (ws.map fun w => .answer (.word w)) ++ rest) :
    run ws.length s =
      .next { s with phase := .busy ⟨h, sumWords acc ws, k + ws.length⟩, inputs := rest,
                     trace := s.trace ++ List.replicate ws.length .streamNext } := by
  induction ws generalizing acc k s with
  | nil =>
    rw [List.map_nil, List.nil_append] at hi
    simp [← hp, ← hi]
  | cons w ws ih =>
    rw [List.length_cons, run_next _ (step_of_streamWord hp hi), ih rfl rfl]
    simp [List.replicate_succ, Nat.add_assoc, Nat.add_comm 1]

/-- The state of a HASH_FILE with handle h that has taken the words ws since its packet left the queue of s. -/
def readingWords (s : State) (q : List Queued) (ticket : Ticket) (h : Word) (ws : List Word) (rest : List Input) :
    State :=
  { s with
    queue := q
    current := ticket
    phase := .busy ⟨h, sumWords 0#32 ws, ws.length⟩
    inputs := rest
    trace := s.trace ++ .streamOpen h :: List.replicate (ws.length + 1) .streamNext }

theorem afterResponse_readingWords (s : State) (q : List Queued) (ticket : Ticket) (h : Word) (ws : List Word)
    (rest : List Input) (status : Status) (value : Word) :
    afterResponse (readingWords s q ticket h ws rest) status value [] =
      afterResponse { s with queue := q, current := ticket, inputs := rest } status value
        (.streamOpen h :: List.replicate (ws.length + 1) .streamNext) := by
  simp [afterResponse, readingWords]

section
variable {s : State} {host : Nat} {h : Word} {raced : List Nat} {q : List Queued} {ws : List Word}
  {rest : List Input}

/-- From its packet at the head of the queue, HASH_FILE opens the stream and takes the words that come. -/
theorem run_hashFile_words (hc : s.cfgValid = true) (hp : s.phase = .idle)
    (hq : s.queue = ⟨host, encode (.hashFile h), raced⟩ :: q)
    (hi : s.inputs = .engine :: (ws.map fun w => .answer (.word w)) ++ rest) :
    run (ws.length + 1) s = .next (readingWords s q ⟨host, raced⟩ h ws rest) := by
  have hopen := (step_of_encoded hp (.inr ⟨_, hi⟩) hq).trans
    (exec_hashFile_of_configured h (s := started s ⟨host, encode (.hashFile h), raced⟩ q) hc)
  rw [run_next _ hopen, run_streamWords rfl (congrArg List.tail hi)]
  simp [readingWords, started, List.replicate_succ]

/-- End after any words: the hash of their sum. -/
theorem run_hashFile_end (hc : s.cfgValid = true) (hp : s.phase = .idle)
    (hq : s.queue = ⟨host, encode (.hashFile h), raced⟩ :: q)
    (hi : s.inputs = .engine :: (ws.map fun w => .answer (.word w)) ++ .answer .endOfStream :: rest) :
    run (ws.length + 2) s =
      .next (afterResponse { s with queue := q, current := ⟨host, raced⟩, inputs := rest } .ok
        (mar s.paramA s.paramB (sumWords 0#32 ws))
        (.streamOpen h :: List.replicate (ws.length + 1) .streamNext)) := by
  rw [run_add 1 (run_hashFile_words hc hp hq hi), run_next 0 (step_of_endOfStream rfl rfl),
    ← afterResponse_readingWords]
  rfl

/-- Error after any words: IO_ERROR. -/
theorem run_hashFile_error (hc : s.cfgValid = true) (hp : s.phase = .idle)
    (hq : s.queue = ⟨host, encode (.hashFile h), raced⟩ :: q)
    (hi : s.inputs = .engine :: (ws.map fun w => .answer (.word w)) ++ .answer .error :: rest) :
    run (ws.length + 2) s =
      .next (afterResponse { s with queue := q, current := ⟨host, raced⟩, inputs := rest } .ioError 0#32
        (.streamOpen h :: List.replicate (ws.length + 1) .streamNext)) := by
  rw [run_add 1 (run_hashFile_words hc hp hq hi), run_next 0 (step_of_streamError rfl rfl),
    ← afterResponse_readingWords]
  rfl

end

/-- Settles O33 (R42, R69): one answer by the step lemmas, whole streams by induction over the words, other inputs and
waiting by `step_of_waiting`. -/
theorem hashFileHashesItsStream : Obligations.HashFileHashesItsStream := by
  intro h s
  have hbusy : ∀ {c}, s.phase = .busy c → s.phase ≠ .idle := fun hp => by simp [hp]
  refine ⟨decode_eq_ok_iff (.hashFile h), fun hc => exec_of_unconfigured hc (by simp) (by simp),
    exec_hashFile_of_configured h, fun c rest hp => ⟨fun w => step_of_streamWord hp, step_of_endOfStream hp,
    step_of_streamError hp, fun e hi ha hr => ?_⟩,
    fun host raced q ws rest hc hp hq => ⟨run_hashFile_end hc hp hq, run_hashFile_error hc hp hq⟩,
    fun c hp hm => ?_⟩
  · obtain ⟨t, ht, hact⟩ := step_of_waiting (s := s) (.inl (hbusy hp))
      (fun rest' h' => hr (by cases hi.symm.trans h'; rfl))
      (fun a rest' h' => absurd (by cases hi.symm.trans h'; rfl) (ha a))
    exact ⟨t, ht, hact.phase.trans hp, hact.inputs.trans (congrArg List.tail hi), hact.current, hact.paramA,
      hact.paramB, hact.cfgValid⟩
  · rw [step_of_engineMoves hm]
    exact engineTurn_of_waiting (.inl (hbusy hp))

/-! ### The HASH_FILE wait (R101) -/

/-- In t the file of s is still waited for: no answer and no reset is to come, no packet has left the queue, and the
ports have carried delivered responses only. -/
structure StillWaiting (s : State) (c : FileRun) (t : State) : Prop where
  phase : t.phase = .busy c
  noReset : .reset ∉ t.inputs
  noAnswer : ∀ a, .answer a ∉ t.inputs
  queue : s.queue.map (fun q => q.words) <+: t.queue.map (fun q => q.words)
  trace : ∃ extra, t.trace = s.trace ++ extra ∧ ∀ e ∈ extra, ∃ r, e = .delivered r

theorem step_stillWaiting (s : State) (c : FileRun) (t u : State) (ht : StillWaiting s c t)
    (h : step t = .next u) : StillWaiting s c u := by
  obtain ⟨v, hv, hact⟩ := step_of_waiting (s := t) (.inl (by simp [ht.phase]))
    (fun rest hi => ht.noReset (by simp [hi])) (fun a rest hi => absurd (by simp [hi]) (ht.noAnswer a))
  cases hv.symm.trans h
  have hinputs : ∀ e ∈ u.inputs, e ∈ t.inputs := fun e he =>
    List.mem_of_mem_tail (by rwa [hact.inputs] at he)
  obtain ⟨es₁, ht₁, hd₁⟩ := ht.trace
  obtain ⟨es₂, ht₂, hd₂⟩ := hact.trace
  exact
    { phase := hact.phase.trans ht.phase
      noReset := fun hm => ht.noReset (hinputs _ hm)
      noAnswer := fun a hm => ht.noAnswer a (hinputs _ hm)
      queue := ht.queue.trans hact.queue
      trace := ⟨es₁ ++ es₂, by rw [ht₂, ht₁, List.append_assoc], List.forall_mem_append.mpr ⟨hd₁, hd₂⟩⟩ }

/-- Settles O34 (R101), by the invariant `StillWaiting`. -/
theorem hashFileWaitsForItsCollaborator : Obligations.HashFileWaitsForItsCollaborator := by
  intro n s t c hp hr ha h
  have ht : StillWaiting s c t :=
    run_keeps (step_stillWaiting s c) ⟨hp, hr, ha, List.prefix_rfl, [], by simp⟩ h
  exact ⟨ht.phase, ht.queue, ht.trace⟩

/-! ### The answers of a file (R43, R65) -/

/-- Under pad the words of a file are the chunks of its bytes. -/
theorem fileAnswersBy_pad (bs : List Byte) :
    fileAnswersBy .pad bs = (chunkWords bs).map .word ++ [.endOfStream] := by
  induction bs using chunkWords.induct with
  | case1 | case2 | case3 | case4 => rfl
  | case5 b0 b1 b2 b3 rest ih => exact congrArg (StreamAnswer.word (le32 b0 b1 b2 b3) :: ·) ih

/-- The policy does not matter to a file of whole records. -/
theorem fileAnswersBy_of_whole {bs : List Byte} (h : 4 ∣ bs.length) (policy : Config.TailPolicy) :
    fileAnswersBy policy bs = (chunkWords bs).map .word ++ [.endOfStream] := by
  induction bs using chunkWords.induct with
  | case1 => rfl
  | case2 | case3 | case4 => simp at h
  | case5 b0 b1 b2 b3 rest ih =>
    exact congrArg (StreamAnswer.word (le32 b0 b1 b2 b3) :: ·) (ih (by simpa using h))

/-- The bytes of the whole records of a file. -/
def wholeRecords (bs : List Byte) : List Byte := bs.take (bs.length / 4 * 4)

theorem wholeRecords_chunk (b0 b1 b2 b3 : Byte) (rest : List Byte) :
    wholeRecords (b0 :: b1 :: b2 :: b3 :: rest) = b0 :: b1 :: b2 :: b3 :: wholeRecords rest := by
  have hlen : (b0 :: b1 :: b2 :: b3 :: rest).length / 4 * 4 = rest.length / 4 * 4 + 4 := by
    simp only [List.length_cons]
    omega
  rw [wholeRecords, hlen]
  rfl

theorem fileAnswersBy_drop (bs : List Byte) :
    fileAnswersBy .drop bs = (chunkWords (wholeRecords bs)).map .word ++ [.endOfStream] := by
  induction bs using chunkWords.induct with
  | case1 => rfl
  | case2 | case3 | case4 => simp [wholeRecords, fileAnswersBy]
  | case5 b0 b1 b2 b3 rest ih =>
    rw [wholeRecords_chunk]
    exact congrArg (StreamAnswer.word (le32 b0 b1 b2 b3) :: ·) ih

theorem fileAnswersBy_fail_of_partial {bs : List Byte} (h : ¬ 4 ∣ bs.length) :
    fileAnswersBy .fail bs = (chunkWords (wholeRecords bs)).map .word ++ [.error] := by
  induction bs using chunkWords.induct with
  | case1 => exact absurd (Nat.dvd_zero 4) h
  | case2 | case3 | case4 => simp [wholeRecords, fileAnswersBy]
  | case5 b0 b1 b2 b3 rest ih =>
    rw [wholeRecords_chunk]
    exact congrArg (StreamAnswer.word (le32 b0 b1 b2 b3) :: ·) (ih (by simpa using h))

/-- Settles O35 (R43, R65): the words are chunks, and Fold is the sum of the chunks. -/
theorem fileAnswersFoldLikeBytes : Obligations.FileAnswersFoldLikeBytes := by
  intro policy bs
  refine ⟨?_, ?_, ?_⟩
  · rintro (h | rfl)
    · exact ⟨_, fileAnswersBy_of_whole h policy, rfl⟩
    · exact ⟨_, fileAnswersBy_pad bs, rfl⟩
  · rintro rfl
    exact ⟨_, fileAnswersBy_drop bs, rfl⟩
  · rintro rfl h
    exact ⟨_, fileAnswersBy_fail_of_partial h⟩

/-- Settles O36 (R65): the sum of the file's words is the Fold of its bytes. -/
theorem fileHashEqualsBufferHash : Obligations.FileHashEqualsBufferHash := by
  intro s host h addr len bs q hc hp hwhole hlen hle hb hq hi
  have hanswers : fileAnswers (some bs) = (chunkWords bs).map .word ++ [.endOfStream] :=
    fileAnswersBy_of_whole hwhole Config.fileTailPolicy
  have hcount : (fileAnswers (some bs)).length + 1 = (chunkWords bs).length + 2 := by simp [hanswers]
  have hfile := run_hashFile_end (ws := chunkWords bs) (rest := []) hc hp hq
    (by simpa [hanswers, Function.comp_def] using hi)
  have hbuffer := hostDutyGivesMemoryBytes addr len { s with current := ⟨host, []⟩ } bs hc hle hlen hb
    (by simp [dutyKept])
  rw [hcount]
  exact ⟨_, _, hfile, hbuffer, rfl, rfl⟩

end Sys2Proof.Machine
end

section
/-! SUPPORT, then the statements of R22, R23, R54 and R98: a queue of packets that is answered one by one. -/

namespace Sys2Proof.Machine

/-! ### A, B and CFG_VALID after one packet -/

section
variable {s : State} {q : Queued}

theorem coefficientsAfter_of_error {e : Reject} (hd : decode q.words = .error e) :
    coefficientsAfter s [q] = (s.cfgValid, s.paramA, s.paramB) := by
  simp [coefficientsAfter, hd]

theorem coefficientsAfter_of_config {a b : Word} {tail : List Word} (hd : decode q.words = .ok (.config a b, tail)) :
    coefficientsAfter s [q] = if s.cfgValid then (s.cfgValid, s.paramA, s.paramB) else (true, a, b) := by
  simp [coefficientsAfter, hd]

theorem coefficientsAfter_of_not_config {i : Instr} {tail : List Word} (hd : decode q.words = .ok (i, tail))
    (hi : ∀ a b, i ≠ .config a b) : coefficientsAfter s [q] = (s.cfgValid, s.paramA, s.paramB) := by
  cases i with
  | config a b => exact absurd rfl (hi a b)
  | _ => simp [coefficientsAfter, hd]

/-- Running a packet's command leaves A, B and CFG_VALID as `coefficientsAfter` says (R26, R72). -/
theorem exec_coefficients {rest : List Queued} {i : Instr} {tail : List Word} {t : State}
    (hd : decode q.words = .ok (i, tail)) (h : exec i (started s q rest) = .next t) :
    (t.cfgValid, t.paramA, t.paramB) = coefficientsAfter s [q] := by
  by_cases hconfig : ∃ a b, i = .config a b
  · obtain ⟨a, b, rfl⟩ := hconfig
    rw [coefficientsAfter_of_config hd]
    cases hc : s.cfgValid with
    | false =>
      cases (exec_config_of_unconfigured a b (s := started s q rest) hc).symm.trans h
      rfl
    | true =>
      cases (exec_config_of_configured a b (s := started s q rest) hc).symm.trans h
      simp [afterResponse, started, hc]
  · have hi : ∀ a b, i ≠ .config a b := fun a b hab => hconfig ⟨a, b, hab⟩
    obtain ⟨e, he, hexec⟩ := exec_effect i (started s q rest)
    cases hexec.symm.trans h
    obtain ⟨hA, hB, hc⟩ := Effect.after_coefficients he hi
    rw [coefficientsAfter_of_not_config hd hi, hA, hB, hc]
    rfl

end

/-! ### One packet -/

/-- A command that is no HASH_FILE of a configured block ends with one response. -/
theorem Effect.after_answered {i : Instr} {s : State} {e : Effect} (he : e.Fits i s.cfgValid)
    (hfile : ∀ h, i = .hashFile h → s.cfgValid = false) :
    (e.after s).phase = .idle ∧ ∃ r, (e.after s).responses = s.responses ++ [r] ∧ r.host = s.current.host := by
  cases e with
  | answer | create => exact ⟨rfl, _, rfl, rfl⟩
  | openFile h =>
    obtain ⟨hi, hc⟩ := he
    cases (hfile h hi).symm.trans hc

/-- The engine alone moves, and its queue holds whole packets, every HASH_FILE among them before CFG_VALID
is set. -/
structure Answerable (s : State) : Prop where
  idle : s.phase = .idle
  noInputs : s.inputs = []
  framed : ∀ q ∈ s.queue, framed q.words = true
  files : ∀ before q after h tail, s.queue = before ++ q :: after → decode q.words = .ok (.hashFile h, tail) →
    (coefficientsAfter s before).1 = false

/-- The step from s answers packet q with r and leads to v, where the packets `rest` are still to be answered. -/
structure AnswersPacket (s : State) (q : Queued) (rest : List Queued) (v : State) (r : Response) : Prop where
  step : step s = .next v
  queue : v.queue = rest
  idle : v.phase = .idle
  inputs : v.inputs = s.inputs.tail
  memory : v.memory = s.memory
  coefficients : (v.cfgValid, v.paramA, v.paramB) = coefficientsAfter s [q]
  responses : v.responses = s.responses ++ [r]
  host : r.host = q.host
  command : ∀ i tail, decode q.words = .ok (i, tail) → exec i (started s q rest) = .next v
  illegal : ∀ e, decode q.words = .error e → r = ⟨q.host, .illegalCommand, 0#32⟩

section
variable {s : State} {q : Queued} {rest : List Queued}

/-- The packet at the head of such a queue is answered in one step. -/
theorem Answerable.answersHead (hs : Answerable s) (hq : s.queue = q :: rest) :
    ∃ v r, AnswersPacket s q rest v r := by
  have hf : Sys2Proof.framed q.words = true := hs.framed q (by simp [hq])
  have hturn : Machine.step s = engineTurn { s with inputs := s.inputs.tail } := step_of_engineMoves (.inl hs.noInputs)
  cases hd : decode q.words with
  | error e =>
    exact ⟨raiseStatus .illegalCommand (started s q rest), ⟨q.host, .illegalCommand, 0#32⟩,
      { step := hturn.trans (engineTurn_of_decode_error hs.idle hq hf hd)
        queue := rfl
        idle := rfl
        inputs := rfl
        memory := rfl
        coefficients := (coefficientsAfter_of_error hd).symm
        responses := rfl
        host := rfl
        command := fun i tail h => by cases hd.symm.trans h
        illegal := fun _ _ => rfl }⟩
  | ok p =>
    obtain ⟨i, tail⟩ := p
    obtain ⟨e, he, hexec⟩ := exec_effect i (started s q rest)
    have hfile : ∀ h, i = .hashFile h → (started s q rest).cfgValid = false := fun h hi =>
      hs.files [] q rest h tail hq (hi ▸ hd)
    obtain ⟨hidle, r, hr, hhost⟩ := Effect.after_answered he hfile
    exact ⟨e.after (started s q rest), r,
      { step := hturn.trans
          ((engineTurn_of_decode_ok (s := { s with inputs := s.inputs.tail }) hs.idle hq hf hd).trans hexec)
        queue := e.after_queue _
        idle := hidle
        inputs := e.after_inputs _
        memory := e.after_memory _
        coefficients := exec_coefficients hd hexec
        responses := hr
        host := hhost
        command := fun i' tail' h => by
          cases hd.symm.trans h
          exact hexec
        illegal := fun e' h => by cases hd.symm.trans h }⟩

/-- The packets behind it can be answered in the same way. -/
theorem Answerable.next (hs : Answerable s) (hq : s.queue = q :: rest) {v : State} {r : Response}
    (h : AnswersPacket s q rest v r) : Answerable v where
  idle := h.idle
  noInputs := by rw [h.inputs, hs.noInputs, List.tail_nil]
  framed q' hq' := hs.framed q' (hq ▸ List.mem_cons_of_mem q (h.queue ▸ hq'))
  files before q' after f tail hv hd := by
    rw [← coefficientsAfter_cons h.coefficients]
    exact hs.files (q :: before) q' after f tail (by rw [hq, ← h.queue, hv, List.cons_append]) hd

end

/-! ### The whole queue -/

/-- The queue is emptied, with one response for each packet, to the packets' hosts in order. -/
theorem Answerable.run_queue {s : State} (hs : Answerable s) {ps : List Queued} (hq : s.queue = ps) :
    ∃ t new, run ps.length s = .next t ∧ t.queue = [] ∧ t.phase = .idle ∧
      t.responses = s.responses ++ new ∧ new.map (fun r => r.host) = ps.map (fun q => q.host) := by
  induction ps generalizing s with
  | nil => exact ⟨s, [], rfl, hq, hs.idle, (List.append_nil _).symm, rfl⟩
  | cons q rest ih =>
    obtain ⟨v, r, hv⟩ := hs.answersHead hq
    obtain ⟨t, new, hrun, htq, htp, htr, hhosts⟩ := ih (hs.next hq hv) hv.queue
    refine ⟨t, r :: new, (run_next _ hv.step).trans hrun, htq, htp, ?_, ?_⟩
    · rw [htr, hv.responses, List.append_assoc, List.singleton_append]
    · rw [List.map_cons, List.map_cons, hv.host, hhosts]

/-- After the packets before it, a packet is at the head of a queue that can be answered. -/
theorem Answerable.run_before {s : State} (hs : Answerable s) {before after : List Queued} {q : Queued}
    (hq : s.queue = before ++ q :: after) :
    ∃ u, run before.length s = .next u ∧ Answerable u ∧ u.queue = q :: after ∧ u.memory = s.memory ∧
      (u.cfgValid, u.paramA, u.paramB) = coefficientsAfter s before := by
  induction before generalizing s with
  | nil => exact ⟨s, rfl, hs, hq, rfl, (coefficientsAfter_nil s).symm⟩
  | cons p before ih =>
    obtain ⟨v, r, hv⟩ := hs.answersHead hq
    obtain ⟨u, hrun, hu, huq, hum, hcoef⟩ := ih (hs.next hq hv) hv.queue
    exact ⟨u, (run_next _ hv.step).trans hrun, hu, huq, hum.trans hv.memory,
      hcoef.trans (coefficientsAfter_cons hv.coefficients before).symm⟩

/-- Settles O43 (R22, R23, R54), by induction over the queue. -/
theorem everyPacketAnsweredInOrder : Obligations.EveryPacketAnsweredInOrder := by
  intro s hp hi hf hfiles
  have hs : Answerable s := ⟨hp, hi, hf, hfiles⟩
  refine ⟨hs.run_queue rfl, fun before q after hq => ?_⟩
  obtain ⟨u, hrun, hu, huq, hum, hcoef⟩ := hs.run_before hq
  obtain ⟨v, r, hv⟩ := hu.answersHead huq
  exact ⟨u, v, r, hrun, hv.step, huq, hu.idle, hum, hcoef, hv.responses, hv.host, hv.command, hv.illegal⟩

/-- Settles O45 (R98): the first step stores a and b, the second uses them. -/
theorem configSeenByNextCommand : Obligations.ConfigSeenByNextCommand := by
  intro s x y a b key rx ry hp hc hi hq
  have hconfig := (step_of_encoded hp (.inl hi) hq).trans (exec_config_of_unconfigured a b hc)
  have hready : ReadyInstance a b (afterResponse
      { started s ⟨x, encode (.config a b), rx⟩ [⟨y, encode (.hashWord key), ry⟩] with
        paramA := a, paramB := b, cfgValid := true } .ok 0#32 []) :=
    ⟨rfl, rfl, rfl, rfl, congrArg List.tail hi⟩
  obtain ⟨t, ht, ⟨hA, hB, hv, -, -⟩, htq, htr⟩ := step_of_answersOk (hashWord_answersOk a b key) hready rfl
  exact ⟨t, (run_next 1 hconfig).trans (run_next 0 ht), htq, hA, hB, hv, htr.trans (List.append_assoc ..)⟩

end Sys2Proof.Machine
end

section
/-! SUPPORT, then the statement of U16: A and B of an unconfigured block are neither seen nor used. -/

namespace Sys2Proof.Machine

/-- The state with other values in A and B. -/
def withCoefficients (a b : Word) (s : State) : State := { s with paramA := a, paramB := b }

/-- The two states are the same, or they differ only in A and B of an unconfigured, IDLE block. -/
def SameButHidden (s s' : State) : Prop :=
  s' = s ∨ (s.cfgValid = false ∧ s.phase = .idle ∧ ∃ a b, s' = withCoefficients a b s)

theorem SameButHidden.hideUnconfigured_eq {s s' : State} (h : SameButHidden s s') :
    hideUnconfigured s' = hideUnconfigured s := by
  rcases h with rfl | ⟨hc, -, a, b, rfl⟩
  · rfl
  · simp [hideUnconfigured, withCoefficients, hc]

/-- Only CONFIG gives A and B a use, and it writes them both. -/
theorem exec_sameButHidden {i : Instr} {s t : State} (hc : s.cfgValid = false) (a b : Word)
    (h : exec i s = .next t) :
    ∃ t', exec i (withCoefficients a b s) = .next t' ∧ SameButHidden t t' := by
  by_cases hconfig : ∃ x y, i = .config x y
  · obtain ⟨x, y, rfl⟩ := hconfig
    cases (exec_config_of_unconfigured x y hc).symm.trans h
    exact ⟨_, exec_config_of_unconfigured x y hc, .inl rfl⟩
  · by_cases hdlen : i = .getDlen
    · subst hdlen
      cases (exec_getDlen s).symm.trans h
      exact ⟨_, exec_getDlen _, .inr ⟨hc, rfl, a, b, rfl⟩⟩
    · have hi : ∀ x y, i ≠ .config x y := fun x y hxy => hconfig ⟨x, y, hxy⟩
      cases (exec_of_unconfigured hc hi hdlen).symm.trans h
      exact ⟨_, exec_of_unconfigured hc hi hdlen, .inr ⟨hc, rfl, a, b, rfl⟩⟩

theorem engineTurn_sameButHidden {s t : State} (hc : s.cfgValid = false) (hp : s.phase = .idle) (a b : Word)
    (h : engineTurn s = .next t) :
    ∃ t', engineTurn (withCoefficients a b s) = .next t' ∧ SameButHidden t t' := by
  rcases engineTurn_cases s with
    ⟨hw, hu⟩ | ⟨q, rest, -, -, -, hu⟩ | ⟨q, rest, e, -, hq, hf, hd, hu⟩ | ⟨q, rest, i, tail, -, hq, hf, hd, hu⟩
  all_goals rw [hu] at h
  · cases h
    exact ⟨_, engineTurn_of_waiting (s := withCoefficients a b s) hw, .inr ⟨hc, hp, a, b, rfl⟩⟩
  · cases h
  · cases h
    exact ⟨_, engineTurn_of_decode_error (s := withCoefficients a b s) hp hq hf hd, .inr ⟨hc, rfl, a, b, rfl⟩⟩
  · rw [engineTurn_of_decode_ok (s := withCoefficients a b s) hp hq hf hd]
    exact exec_sameButHidden (s := startPacket q rest s) hc a b h

/-- The ports look at neither A nor B. -/
theorem acceptWord_withCoefficients (host : Nat) (w : Word) (a b : Word) (s : State) :
    acceptWord host w (withCoefficients a b s) = withCoefficients a b (acceptWord host w s) := by
  simp only [acceptWord, apply_ite (withCoefficients a b)]
  rfl

theorem takeResponse_withCoefficients (host : Nat) (a b : Word) (s : State) :
    takeResponse host (withCoefficients a b s) = withCoefficients a b (takeResponse host s) := by
  simp only [takeResponse, withCoefficients]
  split <;> rfl

theorem step_of_unasked_answer {s : State} {a : StreamAnswer} {rest : List Input} (hp : s.phase = .idle)
    (hi : s.inputs = .answer a :: rest) : step s = .next { s with inputs := rest } := by
  simp [step, hi, collaboratorAnswer, hp]

theorem step_sameButHidden {s s' t : State} (hs : SameButHidden s s') (h : step s = .next t) :
    ∃ t', step s' = .next t' ∧ SameButHidden t t' := by
  rcases hs with rfl | ⟨hc, hp, a, b, rfl⟩
  · exact ⟨t, h, .inl rfl⟩
  have hengine : engineMoves s → ∃ t', step (withCoefficients a b s) = .next t' ∧ SameButHidden t t' := fun hm => by
    rw [step_of_engineMoves hm] at h
    rw [step_of_engineMoves (s := withCoefficients a b s) hm]
    exact engineTurn_sameButHidden (s := { s with inputs := s.inputs.tail }) hc hp a b h
  have hhost : ∀ {rest u}, HostAction { s with inputs := rest } u → SameButHidden u (withCoefficients a b u) :=
    fun hact => .inr ⟨hact.cfgValid.trans hc, hact.phase.trans hp, a, b, rfl⟩
  rcases step_cases s with
    ⟨hi, -⟩ | ⟨rest, hi, -⟩ | ⟨host, w, rest, hi, hu⟩ | ⟨addr, x, rest, hi, hu⟩ | ⟨host, rest, hi, hu⟩ |
    ⟨x, rest, hi, -⟩ | ⟨rest, hi, hu⟩
  · exact hengine (.inl hi)
  · exact hengine (.inr ⟨rest, hi⟩)
  · cases hu.symm.trans h
    exact ⟨_, (step_of_word (s := withCoefficients a b s) hi).trans
      (congrArg Host.Outcome.next (acceptWord_withCoefficients host w a b { s with inputs := rest })),
      hhost (acceptWord_hostAction ..)⟩
  · cases hu.symm.trans h
    exact ⟨_, step_of_write (s := withCoefficients a b s) hi, hhost (hostWrite_hostAction addr x _)⟩
  · cases hu.symm.trans h
    exact ⟨_, (step_of_take (s := withCoefficients a b s) hi).trans
      (congrArg Host.Outcome.next (takeResponse_withCoefficients host a b { s with inputs := rest })),
      hhost (takeResponse_hostAction ..)⟩
  · cases (step_of_unasked_answer hp hi).symm.trans h
    exact ⟨_, step_of_unasked_answer (s := withCoefficients a b s) hp hi, hhost (.refl _)⟩
  · cases hu.symm.trans h
    exact ⟨_, step_of_reset (s := withCoefficients a b s) hi, .inl rfl⟩

theorem run_sameButHidden {n : Nat} {s s' t : State} (hs : SameButHidden s s') (h : run n s = .next t) :
    ∃ t', run n s' = .next t' ∧ SameButHidden t t' := by
  induction n generalizing s s' with
  | zero =>
    cases h
    exact ⟨s', rfl, hs⟩
  | succ n ih =>
    obtain ⟨u, hu, hrun⟩ := run_succ_cases h
    obtain ⟨u', hu', hsu⟩ := step_sameButHidden hs hu
    obtain ⟨t', ht', hst⟩ := ih hsu hrun
    exact ⟨t', (run_next n hu').trans ht', hst⟩

/-- Settles O17 (U16), by the relation `SameButHidden`, which every step keeps. -/
theorem unconfiguredCoefficientsInvisible : Obligations.UnconfiguredCoefficientsInvisible := by
  intro n s t a b hc hp h
  obtain ⟨t', ht', hs⟩ := run_sameButHidden (s' := withCoefficients a b s) (.inr ⟨hc, hp, a, b, rfl⟩) h
  exact ⟨t', ht', hs.hideUnconfigured_eq⟩

end Sys2Proof.Machine
end
